-- ==== Sys2Proof/Word.lean ====
section
/-! DEFINITION. The widths of the block's words (00_scope.md R7, R10): a register image is a `u16`, a byte and a
register address are `u8`, the device bus address is a `u7`. Nothing here computes. -/

namespace Sys2Proof

/-- A 16-bit word: a device register image, a command word, the `in_reg` and `out_reg` ports (R7 `REG_W`, R27, R91). -/
abbrev Word := BitVec 16

/-- One byte on the wire (R52), and one half of a command word (R91). -/
abbrev Byte := BitVec 8

/-- A device register address (R7 `REGADDR_W`, R50). It counts 16-bit registers, not bytes (R51). -/
abbrev RegAddr := BitVec 8

/-- The device bus address (R7 `DEVADDR_W`). -/
abbrev DevAddr := BitVec 7

end Sys2Proof
end

