-- ==== Sys2Proof/Syntax.lean ====
section
/-! DEFINITION. The 24 commands of the opcode map (30_encoding.md R92), one constructor per row of opcode_table.json.
A format C or K command carries its `arg` byte as the word gives it, valid or not (R94); a format N command carries
nothing, since its `arg` has no effect (R91). -/

namespace Sys2Proof

/-- A command of the block: R92's rows in the table's order. `kind` and `ch` are `cmd[7:0]`. -/
inductive Instr where
  | packConfig
  | unpackConfig
  | packMaskEnable
  | unpackMaskEnable
  | voltToReg (kind : Byte)
  | regToVolt (kind : Byte)
  | init
  | getConfig
  | setConfig
  | getMaskEnable
  | setMaskEnable
  | shuntVoltageV (ch : Byte)
  | busVoltageV (ch : Byte)
  | getCritLimitV (ch : Byte)
  | setCritLimitV (ch : Byte)
  | getWarnLimitV (ch : Byte)
  | setWarnLimitV (ch : Byte)
  | shuntSumV
  | getSumLimitV
  | setSumLimitV
  | getPvUpperV
  | setPvUpperV
  | getPvLowerV
  | setPvLowerV
  deriving DecidableEq, Repr

end Sys2Proof
end

