-- ==== Sys2Proof/Decode.lean ====
section
/-! DEFINITION. The command word (30_encoding.md R91 to R95): decoding, total on all 65536 words and rejecting a
reserved `op` by name, and then the encoder, written from the same table. -/

namespace Sys2Proof

/-- Why a word is no command: its `op` is reserved (R95). -/
inductive DecodeError where
  | reservedOpcode (op : Byte)
  deriving DecidableEq, Repr

/-- `op = cmd[15:8]` (R91). -/
def opField (w : Word) : Byte := w.extractLsb' 8 8

/-- `arg = cmd[7:0]` (R91), zero-extended wherever it is used. -/
def argField (w : Word) : Byte := w.extractLsb' 0 8

/-- The opcode map (R92): the row an `op` value selects, with the word's `arg`; format N ignores it. -/
def decodeOp (op arg : Byte) : Except DecodeError Instr :=
  match op.toNat with
  | 0x01 => .ok .packConfig
  | 0x02 => .ok .unpackConfig
  | 0x03 => .ok .packMaskEnable
  | 0x04 => .ok .unpackMaskEnable
  | 0x05 => .ok (.voltToReg arg)
  | 0x06 => .ok (.regToVolt arg)
  | 0x10 => .ok .init
  | 0x11 => .ok .getConfig
  | 0x12 => .ok .setConfig
  | 0x13 => .ok .getMaskEnable
  | 0x14 => .ok .setMaskEnable
  | 0x20 => .ok (.shuntVoltageV arg)
  | 0x21 => .ok (.busVoltageV arg)
  | 0x22 => .ok (.getCritLimitV arg)
  | 0x23 => .ok (.setCritLimitV arg)
  | 0x24 => .ok (.getWarnLimitV arg)
  | 0x25 => .ok (.setWarnLimitV arg)
  | 0x26 => .ok .shuntSumV
  | 0x27 => .ok .getSumLimitV
  | 0x28 => .ok .setSumLimitV
  | 0x29 => .ok .getPvUpperV
  | 0x2A => .ok .setPvUpperV
  | 0x2B => .ok .getPvLowerV
  | 0x2C => .ok .setPvLowerV
  | _ => .error (.reservedOpcode op)

/-- The command a word encodes, or why it encodes none (R91, R92, R95). -/
def decode (w : Word) : Except DecodeError Instr := decodeOp (opField w) (argField w)

/-- What the decoder reads from a word of the opcode table, whose bits are numbered as the table numbers them. Every
command is one 16-bit word (R97), so bits above `nbits` are 0 and a number that needs more than 16 bits is no word. -/
def decodeTableWord (nbits w : Nat) : Option Instr :=
  let bits := w % 2 ^ nbits
  if bits < 65536 then
    match decode (BitVec.ofNat 16 bits) with
    | .ok i => some i
    | .error _ => none
  else none

/-- The `op` of each command (R92). -/
def Instr.op : Instr → Byte
  | .packConfig => 0x01
  | .unpackConfig => 0x02
  | .packMaskEnable => 0x03
  | .unpackMaskEnable => 0x04
  | .voltToReg _ => 0x05
  | .regToVolt _ => 0x06
  | .init => 0x10
  | .getConfig => 0x11
  | .setConfig => 0x12
  | .getMaskEnable => 0x13
  | .setMaskEnable => 0x14
  | .shuntVoltageV _ => 0x20
  | .busVoltageV _ => 0x21
  | .getCritLimitV _ => 0x22
  | .setCritLimitV _ => 0x23
  | .getWarnLimitV _ => 0x24
  | .setWarnLimitV _ => 0x25
  | .shuntSumV => 0x26
  | .getSumLimitV => 0x27
  | .setSumLimitV => 0x28
  | .getPvUpperV => 0x29
  | .setPvUpperV => 0x2A
  | .getPvLowerV => 0x2B
  | .setPvLowerV => 0x2C

/-- The `arg` of each command: its channel or kind; a format N command is encoded with `arg = 0` (log entry 11). -/
def Instr.arg : Instr → Byte
  | .packConfig => 0
  | .unpackConfig => 0
  | .packMaskEnable => 0
  | .unpackMaskEnable => 0
  | .voltToReg kind => kind
  | .regToVolt kind => kind
  | .init => 0
  | .getConfig => 0
  | .setConfig => 0
  | .getMaskEnable => 0
  | .setMaskEnable => 0
  | .shuntVoltageV ch => ch
  | .busVoltageV ch => ch
  | .getCritLimitV ch => ch
  | .setCritLimitV ch => ch
  | .getWarnLimitV ch => ch
  | .setWarnLimitV ch => ch
  | .shuntSumV => 0
  | .getSumLimitV => 0
  | .setSumLimitV => 0
  | .getPvUpperV => 0
  | .setPvUpperV => 0
  | .getPvLowerV => 0
  | .setPvLowerV => 0

/-- The word of a command: `{op, arg}`, `op` in the high byte (R91). -/
def encode (i : Instr) : Word := i.op ++ i.arg

end Sys2Proof
end

