-- ==== Sys2Proof/Config.lean ====
section
/-! DEFINITION. The data the ports carry, the parameter record `Params` (00_scope.md R7), and the values the spec leaves
open. An open value is an `opaque` constant: nothing in Lean can evaluate it or prove a value of it. -/

namespace Sys2Proof

/-! ### Port data -/

/-- A voltage on `in_v` or `out_v`, as the value `val` gives it: a rational, or one of the three values that are not
numbers (R36, R150). Which of them are values of `VOLT_T` is `VoltDomain.has`: with the exact rationals `num` alone. -/
inductive Volt where
  | num (q : Rat)
  | posInf
  | negInf
  | nan
  deriving DecidableEq, Repr, Inhabited

/-- The `Config` record of R29, named here `DeviceConfig` (R16: "the Device Configuration record"). -/
structure DeviceConfig where
  mode    : BitVec 3
  shuntCt : BitVec 3
  busCt   : BitVec 3
  avg     : BitVec 3
  ch3En   : Bool
  ch2En   : Bool
  ch1En   : Bool
  rst     : Bool
  deriving DecidableEq, Repr, Inhabited

/-- The `MaskEnable` record: the 15 flags of R32 to R34. -/
structure MaskEnable where
  scc1 : Bool
  scc2 : Bool
  scc3 : Bool
  wen  : Bool
  cen  : Bool
  cf1  : Bool
  cf2  : Bool
  cf3  : Bool
  sf   : Bool
  wf1  : Bool
  wf2  : Bool
  wf3  : Bool
  pvf  : Bool
  tcf  : Bool
  cvrf : Bool
  deriving DecidableEq, Repr, Inhabited

/-- The name of one Mask/Enable flag, in the order of R34's table. -/
inductive MeFlag where
  | scc1 | scc2 | scc3 | wen | cen | cf1 | cf2 | cf3 | sf | wf1 | wf2 | wf3 | pvf | tcf | cvrf
  deriving DecidableEq, Repr, Inhabited

/-- One answer of the transport to one call (R52, R54): the count it returns, and the two data bytes it supplies when
the call is a read. The count is an `Int`: a negative error code is "fewer than required", and a count above the
request is treated as a failure (D17). -/
structure Answer where
  count : Int
  b0    : Byte
  b1    : Byte
  deriving DecidableEq, Repr, Inhabited

/-! ### Parameters -/

/-- `SIGN_MODE`, the sign encoding of voltage images (R145). -/
inductive SignMode where
  | signMag
  | twos
  deriving DecidableEq, Repr, Inhabited

/-- `VOLT_T`, the numeric domain of the voltage ports (R36): the exact rationals, or a binary floating-point format. -/
inductive VoltDomain where
  | rational
  | binaryFloat
  deriving DecidableEq, Repr, Inhabited

/-- The eight kinds of voltage register (R39). -/
inductive Kind where
  | shunt | bus | crit | warn | sum | sumLimit | pvUpper | pvLower
  deriving DecidableEq, Repr, Inhabited

/-- A scale triple (`FSV`, `FSC`, `SHIFT`) (R40). -/
structure Scale where
  fsv   : Rat
  fsc   : Nat
  shift : Nat
  deriving DecidableEq, Repr, Inhabited

/-- The scale table `SCALE[kind]` (R40), one triple per kind; every cell may be overridden. -/
structure ScaleTable where
  shunt    : Scale
  bus      : Scale
  crit     : Scale
  warn     : Scale
  sum      : Scale
  sumLimit : Scale
  pvUpper  : Scale
  pvLower  : Scale
  deriving DecidableEq, Repr, Inhabited

/-- `ME_LAYOUT`, the bit position of each Mask/Enable flag (R34). -/
structure MeLayout where
  scc1 : Fin 15
  scc2 : Fin 15
  scc3 : Fin 15
  wen  : Fin 15
  cen  : Fin 15
  cf1  : Fin 15
  cf2  : Fin 15
  cf3  : Fin 15
  sf   : Fin 15
  wf1  : Fin 15
  wf2  : Fin 15
  wf3  : Fin 15
  pvf  : Fin 15
  tcf  : Fin 15
  cvrf : Fin 15
  deriving DecidableEq, Repr, Inhabited

/-- The parameter record of R7. `SHIFT_SUM`, `FSC_PV_UPPER` and `FSC_PV_LOWER` are cells of `scale`. The rest of R7's
table is in the types and in the decoder: the three widths are those of `Word`, `RegAddr` and `DevAddr`, the status codes are
`Status.code`, the command word is `decode` (D2, D3, D35: decided, not open). Log entry 16. -/
structure Params where
  /-- `DEV_ADDR`: open. -/
  devAddr       : DevAddr
  /-- `EXPECTED_ID`. -/
  expectedId    : Word
  /-- `ID_REG`, the address of the identification register. -/
  idReg         : RegAddr
  /-- `NCHAN`: the valid channel numbers are 1 to `nchan`. -/
  nchan         : Nat
  /-- `CH_PERIOD`, the distance between the registers of two channels, in register addresses. -/
  chPeriod      : Nat
  /-- `VOLT_T`, by its domain. -/
  voltDomain    : VoltDomain
  signMode      : SignMode
  scale         : ScaleTable
  initResetWord : Word
  stopAfterData : Bool
  meLayout      : MeLayout
  deriving DecidableEq, Repr, Inhabited

/-! ### Open values -/

/-- The value of the parameter `DEV_ADDR` in the reference instance: OPEN (R7, D28). Log entry 2. -/
opaque Config.devAddr : DevAddr

/-- `val (rnd q)` of a floating-point `VOLT_T` (R36, R160): the spec fixes no format. Log entry 6. -/
opaque Config.round : Rat → Volt

/-- What the transport answers to a call for which the state lists no answer (R53: the oracle). Log entry 3. -/
opaque Config.freeAnswer : Nat → Answer

/-- What `out_reg` holds after a command that did not end `Ok` (R228: any value). Log entry 4. -/
opaque Config.freeReg : Nat → Word

/-- What `out_cfg` holds after a command that did not end `Ok` (R228: any value). Log entry 4. -/
opaque Config.freeCfg : Nat → DeviceConfig

/-- What `out_me` holds after a command that did not end `Ok` (R228: any value). Log entry 4. -/
opaque Config.freeMe : Nat → MaskEnable

/-- What `out_v` holds after a command that did not end `Ok` (R228: any value), in a floating-point instance. Log entry 4. -/
opaque Config.freeVolt : Nat → Volt

/-- The same with `VOLT_T` the exact rationals, where every value is a number (R36). Log entry 4. -/
opaque Config.freeRat : Nat → Rat

/-- What `LAST_REG` holds after a reset of a running block (R250: unspecified). Log entry 8. -/
opaque Config.freeAddr : Nat → RegAddr

end Sys2Proof
end

