-- ==== Sys2Proof/Machine/Params.lean ====
section
/-! DEFINITION. The reference instance of the parameters (00_scope.md R7, 10_state.md R34 and R40), the look-ups into
the two tables, and the condition under which a parameter record is admitted (R8). -/

namespace Sys2Proof

/-! ### Constants the spec fixes -/

/-- The Configuration register (R56). -/
def configReg : RegAddr := 0x00

/-- The Mask/Enable register (R56). -/
def maskEnableReg : RegAddr := 0x0F

/-! ### Look-ups -/

/-- `SCALE[kind]` (R40). -/
def ScaleTable.get (t : ScaleTable) : Kind → Scale
  | .shunt => t.shunt
  | .bus => t.bus
  | .crit => t.crit
  | .warn => t.warn
  | .sum => t.sum
  | .sumLimit => t.sumLimit
  | .pvUpper => t.pvUpper
  | .pvLower => t.pvLower

/-- The flags in the order of R34's table. -/
def MeFlag.all : List MeFlag :=
  [.scc1, .scc2, .scc3, .wen, .cen, .cf1, .cf2, .cf3, .sf, .wf1, .wf2, .wf3, .pvf, .tcf, .cvrf]

/-- The value of one flag of a record. -/
def MaskEnable.get (m : MaskEnable) : MeFlag → Bool
  | .scc1 => m.scc1
  | .scc2 => m.scc2
  | .scc3 => m.scc3
  | .wen => m.wen
  | .cen => m.cen
  | .cf1 => m.cf1
  | .cf2 => m.cf2
  | .cf3 => m.cf3
  | .sf => m.sf
  | .wf1 => m.wf1
  | .wf2 => m.wf2
  | .wf3 => m.wf3
  | .pvf => m.pvf
  | .tcf => m.tcf
  | .cvrf => m.cvrf

/-- The bit position of one flag (R34). -/
def MeLayout.pos (l : MeLayout) : MeFlag → Fin 15
  | .scc1 => l.scc1
  | .scc2 => l.scc2
  | .scc3 => l.scc3
  | .wen => l.wen
  | .cen => l.cen
  | .cf1 => l.cf1
  | .cf2 => l.cf2
  | .cf3 => l.cf3
  | .sf => l.sf
  | .wf1 => l.wf1
  | .wf2 => l.wf2
  | .wf3 => l.wf3
  | .pvf => l.pvf
  | .tcf => l.tcf
  | .cvrf => l.cvrf

/-- The values of `VOLT_T` (R36): with the exact rationals every one is a number (R150), and a floating-point format has
the infinities and NaN besides. -/
def VoltDomain.has : VoltDomain → Volt → Bool
  | .rational, .num _ => true
  | .rational, .posInf => false
  | .rational, .negInf => false
  | .rational, .nan => false
  | .binaryFloat, _ => true

/-! ### Which records are admitted -/

/-- R8's condition on one triple: `FSV > 0`, `1 <= FSC`, `SHIFT <= 14`, `FSC * 2^SHIFT <= 0x7FFF`. -/
def Scale.wf (t : Scale) : Bool :=
  decide (0 < t.fsv) && 1 ≤ t.fsc && t.shift ≤ 14 && t.fsc * 2 ^ t.shift ≤ 0x7FFF

/-- Every triple of the table is admitted (R8). -/
def ScaleTable.wf (t : ScaleTable) : Bool :=
  t.shunt.wf && t.bus.wf && t.crit.wf && t.warn.wf && t.sum.wf && t.sumLimit.wf && t.pvUpper.wf && t.pvLower.wf

/-- `ME_LAYOUT` is a bijection onto the positions 0 to 14 (R34): no two flags share one. -/
def MeLayout.wf (l : MeLayout) : Bool := decide ((MeFlag.all.map l.pos).Nodup)

/-- No per-channel address wraps around (20_memory.md R58), the highest base being that of the warning limits. -/
def Params.channelsFit (p : Params) : Bool := 0x08 + p.chPeriod * (p.nchan - 1) ≤ 0xFF

/-- R8, and the conditions of R34 on the layout (log entry 10) and of R58 on the channels (log entry 16). `DEV_ADDR` fits 7
bits by its type. -/
def Params.wf (p : Params) : Bool := p.channelsFit && p.meLayout.wf && p.scale.wf

/-! ### The reference instance -/

/-- The parameters that place the registers have the values the source fixes (00_scope.md R7, log entry 16): with them the
rows of Safety.lean are R56's. -/
def Params.sourceMap (p : Params) : Bool := p.idReg == 0xFF && p.nchan == 3 && p.chPeriod == 2

/-- The reference scale table (R40), with `SHIFT_SUM = 2`, `FSC_PV_UPPER = 1250`, `FSC_PV_LOWER = 1125` (R7). -/
def ScaleTable.reference : ScaleTable where
  shunt    := ⟨mkRat 1638 10000, 0x0FFF, 3⟩
  bus      := ⟨mkRat 3276 100, 0x0FFF, 3⟩
  crit     := ⟨mkRat 1638 10000, 0x0FFF, 3⟩
  warn     := ⟨mkRat 1638 10000, 0x0FFF, 3⟩
  sum      := ⟨mkRat 1638 10000, 0x0FFF, 2⟩
  sumLimit := ⟨mkRat 1638 10000, 0x0FFF, 2⟩
  pvUpper  := ⟨10, 1250, 3⟩
  pvLower  := ⟨9, 1125, 3⟩

/-- The reference Mask/Enable layout (R34's table). -/
def MeLayout.reference : MeLayout where
  scc1 := 14
  scc2 := 13
  scc3 := 12
  wen  := 11
  cen  := 10
  cf1  := 9
  cf2  := 8
  cf3  := 7
  sf   := 6
  wf1  := 5
  wf2  := 4
  wf3  := 3
  pvf  := 2
  tcf  := 1
  cvrf := 0

/-- The reference instance (R7): every column-3 value, with `DEV_ADDR` open. -/
def Params.reference : Params where
  devAddr       := Config.devAddr
  expectedId    := 0x3220
  idReg         := 0xFF
  nchan         := 3
  chPeriod      := 2
  voltDomain    := .rational
  signMode      := .signMag
  scale         := ScaleTable.reference
  initResetWord := 0x8000
  stopAfterData := true
  meLayout      := MeLayout.reference

end Sys2Proof
end

