-- ==== Sys2Proof/Machine/State.lean ====
section
/-! DEFINITION. The state of the block and of its two ports (10_state.md R21, R27, R28), the reasons a step can stop,
and the state after reset (70_reset_and_hazards.md R250). Every field is plain data. -/

namespace Sys2Proof.Machine

/-- The five statuses (60_exceptions.md R220, R221). -/
inductive Status where
  | ok
  | communicationError
  | invalidVendor
  | invalidArgument
  | notInitialized
  deriving DecidableEq, Repr

/-- One transport call as the transport sees it (00_scope.md R14): the device address, the bytes or the length, the
stop flag, the count the transport returned, and for a read the bytes it supplied. -/
inductive Event where
  | write (dev : DevAddr) (bytes : List Byte) (stop : Bool) (n : Int)
  | read (dev : DevAddr) (len : Nat) (stop : Bool) (n : Int) (data : List Byte)
  deriving DecidableEq, Repr

/-- What the host presents to issue one command (R27): the command word and a value on each operand port. A port that
the command does not read may hold any value. -/
structure HostCommand where
  cmd   : Word
  inCfg : DeviceConfig
  inMe  : MaskEnable
  inV   : Volt
  inReg : Word
  deriving DecidableEq, Repr

/-- One thing the host does: it issues a command, or it resets the block (R250). -/
inductive HostInput where
  | command (c : HostCommand)
  | reset
  deriving DecidableEq, Repr

/-- The whole state. The first four fields after `params` are the architectural state of R21; the ports follow (R27);
the last group is the model's own account of the two agents outside the block (R17): what the host will still do,
what the transport will still answer, and the calls it has seen. -/
structure State where
  /-- The parameter record (R7), the model's argument; no step changes it. Log entry 1. -/
  params     : Params
  /-- `DEV_ADDR` (R21): constant after reset. -/
  devAddr    : DevAddr
  /-- `READY` (R21): false is `Uninitialized`, true is `Ready`. -/
  ready      : Bool
  /-- `LAST_VALID` (R21). -/
  lastValid  : Bool
  /-- `LAST_REG` (R21); never read while `LAST_VALID = 0`. -/
  lastReg    : RegAddr
  /-- The `cmd` port: the word of the command being run, or of the last one. -/
  cmd        : Word
  /-- The `in_cfg` port. -/
  inCfg      : DeviceConfig
  /-- The `in_me` port. -/
  inMe       : MaskEnable
  /-- The `in_v` port. -/
  inV        : Volt
  /-- The `in_reg` port. -/
  inReg      : Word
  /-- The `status` port: a 3-bit code (R221). -/
  status     : BitVec 3
  /-- The `out_cfg` port. -/
  outCfg     : DeviceConfig
  /-- The `out_me` port. -/
  outMe      : MaskEnable
  /-- The `out_v` port. -/
  outV       : Volt
  /-- The `out_reg` port. -/
  outReg     : Word
  /-- What the host does next, in issue order (R17, R68): the model's own. Log entry 5. -/
  hostStream : List HostInput
  /-- What the transport answers next, one entry per call (R53): the model's own. Log entry 3. -/
  answers    : List Answer
  /-- Every transport call so far, oldest first (R14, R68 (d)): the model's own. Log entry 3. -/
  trace      : List Event
  /-- How many open values have been drawn so far: the model's own. Log entry 4. -/
  fresh      : Nat
  deriving DecidableEq, Repr

/-- No fault exists. An error of this block is a status, delivered by value, after which the block goes on ("No
operation is fatal to the process", R230); and the model takes a transport call as total (R264). -/
inductive Fault where
  deriving DecidableEq, Repr

/-- Why a step has no next state. -/
inductive Refusal where
  /-- Raised by `exec`'s arm of an instruction that has no meaning yet; safe. No arm raises it. -/
  | notModelled (mnemonic : String)
  /-- Raised by `step` when the parameter record is not admitted: "A record that fails any of these is refused by the
  model" (00_scope.md R8); safe. -/
  | illFormedParams
  /-- Raised by `step` when the host presents on `in_v` what is no value of `VOLT_T`: "A voltage on `in_v` or `out_v` is a
  value of the parameter type `VOLT_T`" (10_state.md R36); safe. A host cannot present one. -/
  | notAVoltage
  /-- Raised by VOLT_TO_REG and the voltage setters when they would encode a NaN: "a model must refuse the command"
  (41_codec_voltage.md R150); safe. No step raises it when `VOLT_T` is the rationals. -/
  | nanVoltage
  deriving DecidableEq, Repr

/-- The block after reset with parameters `p` (R250): `READY = 0`, `LAST_VALID = 0`, `DEV_ADDR` the parameter. `LAST_REG`,
the ports and `status`, which R250 leaves unspecified, are zero (log entry 7). Nothing is loaded and nothing has run. -/
def State.resetWith (p : Params) : State where
  params     := p
  devAddr    := p.devAddr
  ready      := false
  lastValid  := false
  lastReg    := 0
  cmd        := 0
  inCfg      := ⟨0, 0, 0, 0, false, false, false, false⟩
  inMe       := ⟨false, false, false, false, false, false, false, false, false, false, false, false, false, false, false⟩
  inV        := .num 0
  inReg      := 0
  status     := 0
  outCfg     := ⟨0, 0, 0, 0, false, false, false, false⟩
  outMe      := ⟨false, false, false, false, false, false, false, false, false, false, false, false, false, false, false⟩
  outV       := .num 0
  outReg     := 0
  hostStream := []
  answers    := []
  trace      := []
  fresh      := 0

/-- The reference instance right after reset (R7, R250). -/
def State.reset : State := State.resetWith Params.reference

end Sys2Proof.Machine
end

