-- ==== Sys2Proof/Machine/Flags.lean ====
section
/-! DEFINITION. The block has no arithmetic flag; its flag-like state is `READY` and `LAST_VALID`, and its only
per-command condition is `status` (10_state.md R25). This file holds their updates and tests. -/

namespace Sys2Proof.Machine

/-- The number of each status on the 3-bit port (R221). -/
def Status.code : Status → BitVec 3
  | .ok => 0
  | .communicationError => 1
  | .invalidVendor => 2
  | .invalidArgument => 3
  | .notInitialized => 4

/-- `READY <- b` (R171). -/
def State.setReady (b : Bool) (s : State) : State := { s with ready := b }

/-- `LAST_VALID <- 1; LAST_REG <- a`, after a transport sequence that succeeded (R64). -/
def State.setLast (a : RegAddr) (s : State) : State := { s with lastValid := true, lastReg := a }

/-- `LAST_VALID <- 0`, after a transport call that failed (R64); `LAST_REG` is unchanged and not readable. -/
def State.invalidateLast (s : State) : State := { s with lastValid := false }

/-- The fast-path test of `ReadReg`: `LAST_VALID = 1 and LAST_REG = a` (R60). -/
def State.hits (s : State) (a : RegAddr) : Bool := s.lastValid && s.lastReg == a

end Sys2Proof.Machine
end

