-- ==== Sys2Proof/Machine/Operands.lean ====
section
/-! DEFINITION. Every operand form: the channel and kind arguments and their checks (43_session_voltage.md R193,
41_codec_voltage.md R148), the two addressing modes (R207, 20_memory.md R58), and the byte order of an image on the
wire (R59). -/

namespace Sys2Proof.Machine

/-- `CheckCh` (R193) accepts the channel: it raises if `ch = 0` or `ch > NCHAN`, which with three channels is `ch >= 4`. -/
def checkCh (nchan : Nat) (ch : Byte) : Bool := !(ch == 0 || nchan < ch.toNat)

/-- The kind a format K argument names (R39): none if `kind > 7` (R148, R152). -/
def kindOf (kind : Byte) : Option Kind :=
  match kind.toNat with
  | 0 => some .shunt
  | 1 => some .bus
  | 2 => some .crit
  | 3 => some .warn
  | 4 => some .sum
  | 5 => some .sumLimit
  | 6 => some .pvUpper
  | 7 => some .pvLower
  | _ => none

/-- `ChanAddr(base, ch) = base + CH_PERIOD * (ch - 1)` (R58), called only after `checkCh`. -/
def chanAddr (period : Nat) (base : RegAddr) (ch : Byte) : RegAddr :=
  BitVec.ofNat 8 (base.toNat + period * (ch.toNat - 1))

/-- Base address of the per-channel shunt voltage registers (R58). -/
def shuntBase : RegAddr := 0x01

/-- Base address of the per-channel bus voltage registers (R58). -/
def busBase : RegAddr := 0x02

/-- Base address of the per-channel critical limits (R58). -/
def critBase : RegAddr := 0x07

/-- Base address of the per-channel warning limits (R58). -/
def warnBase : RegAddr := 0x08

/-- Address of the shunt voltage sum (R56). -/
def sumReg : RegAddr := 0x0D

/-- Address of the shunt voltage sum limit (R56). -/
def sumLimitReg : RegAddr := 0x0E

/-- Address of the power-valid upper limit (R56). -/
def pvUpperReg : RegAddr := 0x10

/-- Address of the power-valid lower limit (R56). -/
def pvLowerReg : RegAddr := 0x11

/-- `v[15:8]`, the first data byte on the wire (R59). -/
def hiByte (v : Word) : Byte := v.extractLsb' 8 8

/-- `v[7:0]`, the second data byte on the wire (R59). -/
def loByte (v : Word) : Byte := v.extractLsb' 0 8

/-- `{b0, b1} = b0 * 256 + b1`: the image a read delivers (R59). -/
def imageOf (b0 b1 : Byte) : Word := b0 ++ b1

end Sys2Proof.Machine
end

