-- ==== Sys2Proof/Machine/Ops.lean ====
section
/-! DEFINITION. The named operations every command is made of: the end of a command, with or without an error
(60_exceptions.md R228), the transport calls (20_memory.md R52), the register access sequences `ReadReg` and
`WriteReg` (R60, R62), and the host port (10_state.md R27). -/

namespace Sys2Proof.Machine

/-! ### The end of a command -/

/-- Any value of `VOLT_T` (R228): nothing constrains it but its domain. -/
def anyVolt (d : VoltDomain) (n : Nat) : Volt :=
  match d with
  | .rational => .num (Config.freeRat n)
  | .binaryFloat => Config.freeVolt n

/-- An error, the block's analogue of taking an exception (R13, R228): `status` takes the code and the four result
ports hold no defined value. No handler is entered, nothing is saved and no other state changes. The way back (R230) is
no operation: the next command runs under the ordinary rules. -/
def raise (e : Status) (s : State) : State :=
  { s with
    status := e.code
    outCfg := Config.freeCfg s.fresh
    outMe  := Config.freeMe s.fresh
    outV   := anyVolt s.params.voltDomain s.fresh
    outReg := Config.freeReg s.fresh
    fresh  := s.fresh + 1 }

/-- `return Ok` (R13): `status` takes the code of `Ok`; a result port the command did not write keeps what it held (log
entry 9). -/
def finish (s : State) : State := { s with status := Status.ok.code }

/-- A reserved opcode ends `InvalidArgument`, with an empty trace and no state change (R95, R222). -/
def execReserved (s : State) : State := raise .invalidArgument s

/-! ### Transport calls -/

/-- What the transport answers to the `k`-th call from now: the listed answer, or where none is listed a free value
(R53: the block assumes nothing about it). -/
def State.answer (s : State) (k : Nat) : Answer :=
  match s.answers[k]? with
  | some a => a
  | none => Config.freeAnswer (s.fresh + (k - s.answers.length))

/-- The transport has given its next answer: the listed one is used up, or one more free value is drawn. -/
def State.popAnswer (s : State) : State :=
  { s with
    answers := s.answers.tail
    fresh := if s.answers.isEmpty then s.fresh + 1 else s.fresh }

/-- A call that asked for `k` bytes succeeded if and only if the count is `k` (R54, D17). -/
def callOk (k : Int) (a : Answer) : Bool := a.count == k

/-- `T.write(DEV_ADDR, bytes, stop)` (R52): the call is added to the trace, with the count it was answered. -/
def tWrite (bytes : List Byte) (stop : Bool) (s : State) : State :=
  { s.popAnswer with trace := s.trace ++ [.write s.devAddr bytes stop (s.answer 0).count] }

/-- `T.read(DEV_ADDR, 2, stop)` (R52, R55): the only length the block asks for is 2. -/
def tRead (stop : Bool) (s : State) : State :=
  { s.popAnswer with
    trace := s.trace ++ [.read s.devAddr 2 stop (s.answer 0).count [(s.answer 0).b0, (s.answer 0).b1]] }

/-! ### Register access -/

/-- The data phase of `ReadReg` (R60), on either path: the two bytes are the image, high byte first (R59); the data of a
failed read is ignored (R54). -/
def dataPhase (a : RegAddr) (s : State) : Option Word × State :=
  if callOk 2 (s.answer 0) then
    (some (imageOf (s.answer 0).b0 (s.answer 0).b1), (tRead s.params.stopAfterData s).setLast a)
  else
    (none, (tRead s.params.stopAfterData s).invalidateLast)

/-- `ReadReg(a)` (R60): a bare read if the last register was `a`, else an address phase first; after a failed address
phase no data phase is issued. `none` is `fail`. -/
def readReg (a : RegAddr) (s : State) : Option Word × State :=
  if s.hits a then
    dataPhase a s
  else if callOk 1 (s.answer 0) then
    dataPhase a (tWrite [a] false s)
  else
    (none, (tWrite [a] false s).invalidateLast)

/-- `WriteReg(a, v)` (R62): one framed write, high byte first. `false` is `fail`. -/
def writeReg (a : RegAddr) (v : Word) (s : State) : Bool × State :=
  if callOk 3 (s.answer 0) then
    (true, (tWrite [a, hiByte v, loByte v] s.params.stopAfterData s).setLast a)
  else
    (false, (tWrite [a, hiByte v, loByte v] s.params.stopAfterData s).invalidateLast)

/-! ### The host port -/

/-- The block is reset (R250): `READY = 0`, `LAST_VALID = 0`, `DEV_ADDR` the parameter; `LAST_REG` and the result ports hold
no specified value. No transport call is issued (R251). -/
def blockReset (s : State) : State :=
  { s with
    devAddr   := s.params.devAddr
    ready     := false
    lastValid := false
    lastReg   := Config.freeAddr s.fresh
    outCfg    := Config.freeCfg s.fresh
    outMe     := Config.freeMe s.fresh
    outV      := anyVolt s.params.voltDomain s.fresh
    outReg    := Config.freeReg s.fresh
    fresh     := s.fresh + 1 }

/-- The host presents a command: its word and its operands stand on the input ports (R27), and the stream moves on. -/
def present (c : HostCommand) (rest : List HostInput) (s : State) : State :=
  { s with
    cmd := c.cmd
    inCfg := c.inCfg
    inMe := c.inMe
    inV := c.inV
    inReg := c.inReg
    hostStream := rest }

end Sys2Proof.Machine
end

