-- ==== Sys2Proof/Machine/BitField.lean ====
section
/-! DEFINITION. The bit-field packer and unpacker (40_codec_bitfield.md): the four functions, and the meanings of
PACK_CONFIG, UNPACK_CONFIG, PACK_MASK_ENABLE and UNPACK_MASK_ENABLE. Every one reads no state but its operand port,
issues no transport call and ends `Ok` whatever `READY` is (R120). -/

namespace Sys2Proof.Machine

/-- A flag as a 16-bit word, 0 or 1. -/
def bit (b : Bool) : Word := (BitVec.ofBool b).setWidth 16

/-- `PackConfig` (R121). -/
def packConfig (c : DeviceConfig) : Word :=
  (bit c.rst <<< 15) ||| (bit c.ch1En <<< 14) ||| (bit c.ch2En <<< 13) ||| (bit c.ch3En <<< 12) |||
    (c.avg.setWidth 16 <<< 9) ||| (c.busCt.setWidth 16 <<< 6) ||| (c.shuntCt.setWidth 16 <<< 3) |||
    c.mode.setWidth 16

/-- `UnpackConfig` (R122). -/
def unpackConfig (r : Word) : DeviceConfig where
  rst     := r.getLsbD 15
  ch1En   := r.getLsbD 14
  ch2En   := r.getLsbD 13
  ch3En   := r.getLsbD 12
  avg     := r.extractLsb' 9 3
  busCt   := r.extractLsb' 6 3
  shuntCt := r.extractLsb' 3 3
  mode    := r.extractLsb' 0 3

/-- `PackMaskEnable` (R125): each flag at the position the layout gives it; bit 15 is 0 (R35). -/
def packMaskEnable (l : MeLayout) (m : MaskEnable) : Word :=
  MeFlag.all.foldl (fun w f => w ||| (bit (m.get f) <<< (l.pos f).val)) 0

/-- `UnpackMaskEnable` (R126): each flag from the position the layout gives it; bit 15 is ignored (R35). -/
def unpackMaskEnable (l : MeLayout) (r : Word) : MaskEnable where
  scc1 := r.getLsbD l.scc1
  scc2 := r.getLsbD l.scc2
  scc3 := r.getLsbD l.scc3
  wen  := r.getLsbD l.wen
  cen  := r.getLsbD l.cen
  cf1  := r.getLsbD l.cf1
  cf2  := r.getLsbD l.cf2
  cf3  := r.getLsbD l.cf3
  sf   := r.getLsbD l.sf
  wf1  := r.getLsbD l.wf1
  wf2  := r.getLsbD l.wf2
  wf3  := r.getLsbD l.wf3
  pvf  := r.getLsbD l.pvf
  tcf  := r.getLsbD l.tcf
  cvrf := r.getLsbD l.cvrf

/-- PACK_CONFIG (R121). -/
def execPackConfig (s : State) : Host.Outcome State Fault Refusal :=
  .next (finish { s with outReg := packConfig s.inCfg })

/-- UNPACK_CONFIG (R122). -/
def execUnpackConfig (s : State) : Host.Outcome State Fault Refusal :=
  .next (finish { s with outCfg := unpackConfig s.inReg })

/-- PACK_MASK_ENABLE (R125). -/
def execPackMaskEnable (s : State) : Host.Outcome State Fault Refusal :=
  .next (finish { s with outReg := packMaskEnable s.params.meLayout s.inMe })

/-- UNPACK_MASK_ENABLE (R126). -/
def execUnpackMaskEnable (s : State) : Host.Outcome State Fault Refusal :=
  .next (finish { s with outMe := unpackMaskEnable s.params.meLayout s.inReg })

end Sys2Proof.Machine
end

