-- ==== Sys2Proof/Machine/Control.lean ====
section
/-! DEFINITION. The sequencer's control commands (42_session_control.md): the two register templates they share, and the
meanings of INIT, GET_CONFIG, SET_CONFIG, GET_MASK_ENABLE and SET_MASK_ENABLE. A command that needs a session tests
`READY` before any transport call and ends `NotInitialized` when it is 0 (R170, 60_exceptions.md R224). -/

namespace Sys2Proof.Machine

/-- One `ReadReg`, then `deliver` puts the image read on a result port; a failed read ends `CommunicationError` (R170). -/
def getReg (a : RegAddr) (deliver : Word → State → State) (s : State) : State :=
  if s.ready then
    match readReg a s with
    | (none, s1) => raise .communicationError s1
    | (some r, s1) => finish (deliver r s1)
  else raise .notInitialized s

/-- One `WriteReg`; a failed write ends `CommunicationError` (R170). -/
def setReg (a : RegAddr) (w : Word) (s : State) : State :=
  if s.ready then
    match writeReg a w s with
    | (false, s1) => raise .communicationError s1
    | (true, s1) => finish s1
  else raise .notInitialized s

/-- The second word INIT writes: the configuration supplied, `rst` forced to 0 (R173). -/
def initConfigWord (c : DeviceConfig) : Word := packConfig c &&& 0x7FFF

/-- INIT after the identification matched: the two writes to the Configuration register, and `READY <- 1` (R171). -/
def initWrites (s : State) : State :=
  match writeReg configReg s.params.initResetWord s with
  | (false, s1) => raise .communicationError s1
  | (true, s1) =>
    match writeReg configReg (initConfigWord s.inCfg) s1 with
    | (false, s2) => raise .communicationError s2
    | (true, s2) => finish (s2.setReady true)

/-- The whole of INIT (R171): `READY` is cleared first, and stays 0 on every failure exit. -/
def initSession (s : State) : State :=
  match readReg s.params.idReg (s.setReady false) with
  | (none, s1) => raise .communicationError s1
  | (some id, s1) => if id = s.params.expectedId then initWrites s1 else raise .invalidVendor s1

/-- INIT (R171). -/
def execInit (s : State) : Host.Outcome State Fault Refusal := .next (initSession s)

/-- GET_CONFIG (R175). -/
def execGetConfig (s : State) : Host.Outcome State Fault Refusal :=
  .next (getReg configReg (fun r t => { t with outCfg := unpackConfig r }) s)

/-- SET_CONFIG (R176); the `rst` field is written as given. -/
def execSetConfig (s : State) : Host.Outcome State Fault Refusal :=
  .next (setReg configReg (packConfig s.inCfg) s)

/-- GET_MASK_ENABLE (R177). -/
def execGetMaskEnable (s : State) : Host.Outcome State Fault Refusal :=
  .next (getReg maskEnableReg (fun r t => { t with outMe := unpackMaskEnable t.params.meLayout r }) s)

/-- SET_MASK_ENABLE (R178). -/
def execSetMaskEnable (s : State) : Host.Outcome State Fault Refusal :=
  .next (setReg maskEnableReg (packMaskEnable s.params.meLayout s.inMe) s)

end Sys2Proof.Machine
end

