-- ==== Sys2Proof/Machine/Scaler.lean ====
section
/-! DEFINITION. The fixed-point scaler (41_codec_voltage.md): the functions `V2R` and `R2V` with an explicit scale triple
(30_encoding.md R103), their extension to the values of `VOLT_T` that are no numbers (R150), and the meanings of
VOLT_TO_REG and REG_TO_VOLT. Arithmetic is exact (R140). -/

namespace Sys2Proof.Machine

/-- `clamp(v, lo, hi)` (00_scope.md R10). -/
def clamp (v lo hi : Rat) : Rat := if v < lo then lo else if hi < v then hi else v

/-- `trunc(q)`: the integer part toward zero (00_scope.md R10, R142). -/
def trunc (q : Rat) : Int := q.num.tdiv q.den

/-- `asr(n, s) = floor(n / 2^s)` (00_scope.md R10). -/
def asr (n : Int) (s : Nat) : Int := n / 2 ^ s

/-- `MASK(s) = (0xFFFF << s) & 0xFFFF` (R144). -/
def fieldMask (s : Nat) : Word := (0xFFFF : Word) <<< s

/-- `EncSign` (R145), the sign encoding of a shifted value `sh` with `-0x7FFF <= sh <= 0x7FFF`. -/
def encSign (m : SignMode) (sh : Int) : Word :=
  match m with
  | .signMag => if sh < 0 then 0x8000 ||| BitVec.ofNat 16 sh.natAbs else BitVec.ofInt 16 sh
  | .twos => if sh < 0 then BitVec.ofInt 16 (0x10000 + sh) else BitVec.ofInt 16 sh

/-- `DecSign` (R151), the sign decoding of a masked image. -/
def decSign (m : SignMode) (w : Word) : Int :=
  match m with
  | .signMag => if w.getLsbD 15 then -((w &&& 0x7FFF).toNat : Int) else (w.toNat : Int)
  | .twos => w.toInt

/-- Steps 1 and 2 of `V2R`: `raw = trunc(clamp(v, -FSV, +FSV) * FSC / FSV)` (R141, R142). -/
def rawOf (t : Scale) (v : Rat) : Int := trunc (clamp v (-t.fsv) t.fsv * t.fsc / t.fsv)

/-- `V2R` (R147). -/
def v2r (m : SignMode) (t : Scale) (v : Rat) : Word :=
  encSign m (rawOf t v * 2 ^ t.shift) &&& fieldMask t.shift

/-- `R2V` (R151); no clamp on the decode side. -/
def r2v (m : SignMode) (t : Scale) (r : Word) : Rat :=
  t.fsv * asr (decSign m (r &&& fieldMask t.shift)) t.shift / t.fsc

/-- `V2R` on the value of a voltage port: an infinity clamps to the full-scale voltage of its sign, and a NaN has no
image (R150). -/
def encodeVolt (p : Params) (k : Kind) : Volt → Option Word
  | .num v => some (v2r p.signMode (p.scale.get k) v)
  | .posInf => some (v2r p.signMode (p.scale.get k) (p.scale.get k).fsv)
  | .negInf => some (v2r p.signMode (p.scale.get k) (-(p.scale.get k).fsv))
  | .nan => none

/-- The value of `VOLT_T` a decoded voltage is presented as: itself, or in a floating-point format its rounding `rnd`
(10_state.md R36, R160). -/
def roundVolt (d : VoltDomain) (q : Rat) : Volt :=
  match d with
  | .rational => .num q
  | .binaryFloat => Config.round q

/-- `R2V`, rounded once to the value of a voltage port (R152). -/
def decodeVolt (p : Params) (k : Kind) (r : Word) : Volt :=
  roundVolt p.voltDomain (r2v p.signMode (p.scale.get k) r)

/-- VOLT_TO_REG (R148). -/
def execVoltToReg (kind : Byte) (s : State) : Host.Outcome State Fault Refusal :=
  match kindOf kind with
  | none => .next (raise .invalidArgument s)
  | some k =>
    match encodeVolt s.params k s.inV with
    | none => .refused .nanVoltage
    | some w => .next (finish { s with outReg := w })

/-- REG_TO_VOLT (R152). -/
def execRegToVolt (kind : Byte) (s : State) : Host.Outcome State Fault Refusal :=
  match kindOf kind with
  | none => .next (raise .invalidArgument s)
  | some k => .next (finish { s with outV := decodeVolt s.params k s.inReg })

end Sys2Proof.Machine
end

