-- ==== Sys2Proof/Machine/Voltage.lean ====
section
/-! DEFINITION. The sequencer's voltage commands (43_session_voltage.md): the getter and setter templates (R191, R192), the
channel check (R193), and the meanings of the thirteen commands R194 to R206. -/

namespace Sys2Proof.Machine

/-- `GetV(kind, addr)` (R191). -/
def getV (k : Kind) (a : RegAddr) (s : State) : State :=
  getReg a (fun r t => { t with outV := decodeVolt t.params k r }) s

/-- `SetV(kind, addr)` (R192): the `READY` check, then `V2R`, then one `WriteReg`. A NaN is refused where `V2R` would meet
it (41_codec_voltage.md R150). -/
def setV (k : Kind) (a : RegAddr) (s : State) : Host.Outcome State Fault Refusal :=
  if s.ready then
    match encodeVolt s.params k s.inV with
    | none => .refused .nanVoltage
    | some w => .next (setReg a w s)
  else .next (raise .notInitialized s)

/-- A per-channel getter: `CheckCh(ch)`, then the getter at the channel's register (R193). -/
def getChannelV (k : Kind) (base : RegAddr) (ch : Byte) (s : State) : Host.Outcome State Fault Refusal :=
  .next (if checkCh s.params.nchan ch then getV k (chanAddr s.params.chPeriod base ch) s else raise .invalidArgument s)

/-- A per-channel setter: `CheckCh(ch)`, then the setter at the channel's register (R193). -/
def setChannelV (k : Kind) (base : RegAddr) (ch : Byte) (s : State) : Host.Outcome State Fault Refusal :=
  if checkCh s.params.nchan ch then setV k (chanAddr s.params.chPeriod base ch) s else .next (raise .invalidArgument s)

/-- SHUNT_VOLTAGE_V (R194). -/
def execShuntVoltageV (ch : Byte) (s : State) : Host.Outcome State Fault Refusal := getChannelV .shunt shuntBase ch s

/-- BUS_VOLTAGE_V (R195). -/
def execBusVoltageV (ch : Byte) (s : State) : Host.Outcome State Fault Refusal := getChannelV .bus busBase ch s

/-- GET_CRIT_LIMIT_V (R197). -/
def execGetCritLimitV (ch : Byte) (s : State) : Host.Outcome State Fault Refusal := getChannelV .crit critBase ch s

/-- SET_CRIT_LIMIT_V (R198). -/
def execSetCritLimitV (ch : Byte) (s : State) : Host.Outcome State Fault Refusal := setChannelV .crit critBase ch s

/-- GET_WARN_LIMIT_V (R199). -/
def execGetWarnLimitV (ch : Byte) (s : State) : Host.Outcome State Fault Refusal := getChannelV .warn warnBase ch s

/-- SET_WARN_LIMIT_V (R200). -/
def execSetWarnLimitV (ch : Byte) (s : State) : Host.Outcome State Fault Refusal := setChannelV .warn warnBase ch s

/-- SHUNT_SUM_V (R196). -/
def execShuntSumV (s : State) : Host.Outcome State Fault Refusal := .next (getV .sum sumReg s)

/-- GET_SUM_LIMIT_V (R201). -/
def execGetSumLimitV (s : State) : Host.Outcome State Fault Refusal := .next (getV .sumLimit sumLimitReg s)

/-- SET_SUM_LIMIT_V (R202). -/
def execSetSumLimitV (s : State) : Host.Outcome State Fault Refusal := setV .sumLimit sumLimitReg s

/-- GET_PV_UPPER_V (R203). -/
def execGetPvUpperV (s : State) : Host.Outcome State Fault Refusal := .next (getV .pvUpper pvUpperReg s)

/-- SET_PV_UPPER_V (R204). -/
def execSetPvUpperV (s : State) : Host.Outcome State Fault Refusal := setV .pvUpper pvUpperReg s

/-- GET_PV_LOWER_V (R205). -/
def execGetPvLowerV (s : State) : Host.Outcome State Fault Refusal := .next (getV .pvLower pvLowerReg s)

/-- SET_PV_LOWER_V (R206). -/
def execSetPvLowerV (s : State) : Host.Outcome State Fault Refusal := setV .pvLower pvLowerReg s

end Sys2Proof.Machine
end

