-- ==== Sys2Proof/Machine/Dispatch.lean ====
section
/-! DEFINITION. The meaning of each command (30_encoding.md R92): one arm per row of the opcode map, in its order. -/

namespace Sys2Proof.Machine

def exec (i : Instr) (s : State) : Host.Outcome State Fault Refusal :=
  match i with
  | .packConfig => Sys2Proof.Machine.execPackConfig s
  | .unpackConfig => Sys2Proof.Machine.execUnpackConfig s
  | .packMaskEnable => Sys2Proof.Machine.execPackMaskEnable s
  | .unpackMaskEnable => Sys2Proof.Machine.execUnpackMaskEnable s
  | .voltToReg kind => Sys2Proof.Machine.execVoltToReg kind s
  | .regToVolt kind => Sys2Proof.Machine.execRegToVolt kind s
  | .init => Sys2Proof.Machine.execInit s
  | .getConfig => Sys2Proof.Machine.execGetConfig s
  | .setConfig => Sys2Proof.Machine.execSetConfig s
  | .getMaskEnable => Sys2Proof.Machine.execGetMaskEnable s
  | .setMaskEnable => Sys2Proof.Machine.execSetMaskEnable s
  | .shuntVoltageV ch => Sys2Proof.Machine.execShuntVoltageV ch s
  | .busVoltageV ch => Sys2Proof.Machine.execBusVoltageV ch s
  | .getCritLimitV ch => Sys2Proof.Machine.execGetCritLimitV ch s
  | .setCritLimitV ch => Sys2Proof.Machine.execSetCritLimitV ch s
  | .getWarnLimitV ch => Sys2Proof.Machine.execGetWarnLimitV ch s
  | .setWarnLimitV ch => Sys2Proof.Machine.execSetWarnLimitV ch s
  | .shuntSumV => Sys2Proof.Machine.execShuntSumV s
  | .getSumLimitV => Sys2Proof.Machine.execGetSumLimitV s
  | .setSumLimitV => Sys2Proof.Machine.execSetSumLimitV s
  | .getPvUpperV => Sys2Proof.Machine.execGetPvUpperV s
  | .setPvUpperV => Sys2Proof.Machine.execSetPvUpperV s
  | .getPvLowerV => Sys2Proof.Machine.execGetPvLowerV s
  | .setPvLowerV => Sys2Proof.Machine.execSetPvLowerV s

end Sys2Proof.Machine
end

