-- ==== Sys2Proof/Machine/Step.lean ====
section
/-! DEFINITION. One step of the machine: the next thing the host does (10_state.md R22, R27). The block has no program
counter and fetches nothing; the host presents one command at a time, and a command runs to its end in one step (R22,
20_memory.md R68). -/

namespace Sys2Proof.Machine

/-- The command on the `cmd` port is decoded and run; a reserved opcode ends `InvalidArgument` (30_encoding.md R95). -/
def runCommand (s : State) : Host.Outcome State Fault Refusal :=
  match decode s.cmd with
  | .ok i => exec i s
  | .error _ => .next (execReserved s)

/-- The host issues a command (10_state.md R27). A value on `in_v` that is none of `VOLT_T` is refused (R36; log entry 6). -/
def issue (c : HostCommand) (rest : List HostInput) (s : State) : Host.Outcome State Fault Refusal :=
  if s.params.voltDomain.has c.inV then runCommand (present c rest s) else .refused .notAVoltage

/-- One step. A parameter record that is not admitted is refused (00_scope.md R8); with no input from the host the block
stays idle (10_state.md R22; log entry 5). -/
def step (s : State) : Host.Outcome State Fault Refusal :=
  if s.params.wf then
    match s.hostStream with
    | [] => .next s
    | .reset :: rest => .next (blockReset { s with hostStream := rest })
    | .command c :: rest => issue c rest s
  else .refused .illFormedParams

/-- `s` with the host about to issue the command word `w`, its operands being what the input ports hold. Every command is
one 16-bit word (30_encoding.md R97). -/
def State.withFetchWord (s : State) (nbits w : Nat) : State :=
  { s with
    hostStream :=
      .command ⟨BitVec.ofNat 16 (w % 2 ^ nbits), s.inCfg, s.inMe, s.inV, s.inReg⟩ :: s.hostStream }

end Sys2Proof.Machine
end

