-- ==== Sys2Proof/WellFormed.lean ====
section
/-! DEFINITION. Well-formed commands: those whose `arg` byte the spec calls valid (30_encoding.md R94). An ill-formed
one is still an encoding: it decodes, runs, and ends `InvalidArgument` (60_exceptions.md R223). The number of channels is
the parameter `NCHAN` (00_scope.md R7). -/

namespace Sys2Proof

/-- Format C: the valid channel numbers are 1 to `NCHAN` (R94: {1, 2, 3}; 00_scope.md R7: `NCHAN` is 3). -/
def validChannel (nchan : Nat) (ch : Byte) : Bool := 1 ≤ ch.toNat && ch.toNat ≤ nchan

/-- Format K: the valid kind numbers are 0 to 7 (R94). -/
def validKind (kind : Byte) : Bool := kind.toNat ≤ 7

/-- The argument of the command is valid on a block of `nchan` channels; a format N command has none to check (R94). -/
def Instr.argValid (nchan : Nat) : Instr → Bool
  | .packConfig => true
  | .unpackConfig => true
  | .packMaskEnable => true
  | .unpackMaskEnable => true
  | .voltToReg kind => validKind kind
  | .regToVolt kind => validKind kind
  | .init => true
  | .getConfig => true
  | .setConfig => true
  | .getMaskEnable => true
  | .setMaskEnable => true
  | .shuntVoltageV ch => validChannel nchan ch
  | .busVoltageV ch => validChannel nchan ch
  | .getCritLimitV ch => validChannel nchan ch
  | .setCritLimitV ch => validChannel nchan ch
  | .getWarnLimitV ch => validChannel nchan ch
  | .setWarnLimitV ch => validChannel nchan ch
  | .shuntSumV => true
  | .getSumLimitV => true
  | .setSumLimitV => true
  | .getPvUpperV => true
  | .setPvUpperV => true
  | .getPvLowerV => true
  | .setPvLowerV => true

/-- Well-formed: the argument is valid with the three channels of R94. -/
def Instr.wf (i : Instr) : Bool := i.argValid 3

end Sys2Proof
end

