-- ==== Sys2Proof/Safety.lean ====
section
/-! DEFINITION. What a good state and a good run are, and the terms the claims use: which registers the map has
(20_memory.md R56), which transport calls are legal (30_encoding.md R100), the register pointer of a device that retains
it (20_memory.md R53), and what a command leaves alone. -/

namespace Sys2Proof.Machine

/-! ### The register map -/

/-- The addresses of the register map (R56): `0x00` to `0x11`, and `0xFF`. -/
def mapped (a : RegAddr) : Bool := a.toNat ≤ 0x11 || a.toNat == 0xFF

/-- The addresses R56's last column gives a writer: Configuration, the critical and warning limits, the sum limit,
Mask/Enable, and the power-valid limits. -/
def writable (a : RegAddr) : Bool :=
  a.toNat == 0x00 || (0x07 ≤ a.toNat && a.toNat ≤ 0x0C) || (0x0E ≤ a.toNat && a.toNat ≤ 0x11)

/-- A row of R56's map for each channel (R58); an invalid channel has none. -/
def channelRow (p : Params) (k : Kind) (base : RegAddr) (ch : Byte) : Option (Kind × RegAddr) :=
  if validChannel p.nchan ch then some (k, chanAddr p.chPeriod base ch) else none

/-- The register a voltage getter reads and its kind, as R56's rows list them. -/
def voltGetter (p : Params) : Instr → Option (Kind × RegAddr)
  | .shuntVoltageV ch => channelRow p .shunt 0x01 ch
  | .busVoltageV ch => channelRow p .bus 0x02 ch
  | .getCritLimitV ch => channelRow p .crit 0x07 ch
  | .getWarnLimitV ch => channelRow p .warn 0x08 ch
  | .shuntSumV => some (.sum, 0x0D)
  | .getSumLimitV => some (.sumLimit, 0x0E)
  | .getPvUpperV => some (.pvUpper, 0x10)
  | .getPvLowerV => some (.pvLower, 0x11)
  | _ => none

/-- The register a voltage setter writes and its kind, as R56's rows list them. -/
def voltSetter (p : Params) : Instr → Option (Kind × RegAddr)
  | .setCritLimitV ch => channelRow p .crit 0x07 ch
  | .setWarnLimitV ch => channelRow p .warn 0x08 ch
  | .setSumLimitV => some (.sumLimit, 0x0E)
  | .setPvUpperV => some (.pvUpper, 0x10)
  | .setPvLowerV => some (.pvLower, 0x11)
  | _ => none

/-- The register a getter reads (R56's column "read by", INIT apart). -/
def readTarget (p : Params) : Instr → Option RegAddr
  | .getConfig => some 0x00
  | .getMaskEnable => some 0x0F
  | i => (voltGetter p i).map (·.2)

/-- The register a setter writes (R56's column "written by", INIT apart). -/
def writeTarget (p : Params) : Instr → Option RegAddr
  | .setConfig => some 0x00
  | .setMaskEnable => some 0x0F
  | i => (voltSetter p i).map (·.2)

/-- The format C commands (R91): their `arg` is a channel. -/
def hasChannel : Instr → Bool
  | .shuntVoltageV _ => true
  | .busVoltageV _ => true
  | .getCritLimitV _ => true
  | .setCritLimitV _ => true
  | .getWarnLimitV _ => true
  | .setWarnLimitV _ => true
  | _ => false

/-- The number of each kind (R39). -/
def kindNumber : Kind → Nat
  | .shunt => 0
  | .bus => 1
  | .crit => 2
  | .warn => 3
  | .sum => 4
  | .sumLimit => 5
  | .pvUpper => 6
  | .pvLower => 7

/-- The image a setter writes (R176, R178, R192); none for a command that is no setter and for a NaN. -/
def setterWord (i : Instr) (s : State) : Option Word :=
  match i with
  | .setConfig => some (packConfig s.inCfg)
  | .setMaskEnable => some (packMaskEnable s.params.meLayout s.inMe)
  | i => (voltSetter s.params i).bind fun row => encodeVolt s.params row.1 s.inV

/-- The format N commands (R91): their `arg` is ignored. -/
def formatN : Instr → Bool
  | .voltToReg _ => false
  | .regToVolt _ => false
  | i => !hasChannel i

/-- The six codec operations (R93): those whose `op[7:4]` is 0. -/
def isCodec (i : Instr) : Bool := i.op.toNat / 16 == 0

/-- The sequencer commands that test `READY`: all but INIT (R170, R224). -/
def needsSession (i : Instr) : Bool := !isCodec i && !(i == .init)

/-! ### Transport calls -/

/-- The call transferred what it asked for (R54). -/
def Event.ok : Event → Bool
  | .write _ bytes _ n => n == bytes.length
  | .read _ len _ n _ => n == len

/-- The call has one of the three shapes of R100, is made to the device (R28), and names a register of the map: an
address phase of a mapped register, a 2-byte data read, or a framed write of a writable register. -/
def Event.legal (dev : DevAddr) (stopAfterData : Bool) : Event → Bool
  | .write d [a] stop _ => d == dev && !stop && mapped a
  | .write d [a, _, _] stop _ => d == dev && stop == stopAfterData && writable a
  | .write _ _ _ _ => false
  | .read d len stop _ data => d == dev && len == 2 && stop == stopAfterData && data.length == 2

/-- The register pointer, after one call, of a device that retains it (R53), as far as the calls tell: a write that
succeeded sets it, a read that succeeded keeps it, and after a failed call it is not known. -/
def pointerAfter (p : Option RegAddr) : Event → Option RegAddr
  | .write _ bytes _ n => if n == bytes.length then bytes.head? else none
  | .read _ len _ n _ => if n == len then p else none

/-- The register pointer of a device that retains it, after all the calls of a trace. -/
def devicePointer (tr : List Event) : Option RegAddr := tr.foldl pointerAfter none

/-- Every data read of the trace is made while the retained pointer is known. -/
def readsAddressed : Option RegAddr → List Event → Bool
  | _, [] => true
  | p, .write d bytes stop n :: rest => readsAddressed (pointerAfter p (.write d bytes stop n)) rest
  | p, .read d len stop n data :: rest => p.isSome && readsAddressed (pointerAfter p (.read d len stop n data)) rest

/-- The calls a step added to the trace (R14: the trace of a command). -/
def newCalls (s t : State) : List Event := t.trace.drop s.trace.length

/-- The image a list of calls read first, if it did read one (R59). -/
def firstImage : List Event → Option Word
  | [] => none
  | .write _ _ _ _ :: rest => firstImage rest
  | .read _ _ _ _ data :: _ =>
    match data with
    | [b0, b1] => some (BitVec.ofNat 16 (b0.toNat * 256 + b1.toNat))
    | _ => none

/-- The registers a list of calls writes: the address of each framed write. -/
def writtenRegs : List Event → List RegAddr
  | [] => []
  | .write _ [a, _, _] _ _ :: rest => a :: writtenRegs rest
  | _ :: rest => writtenRegs rest

/-! ### Frames -/

/-- What no command changes: the parameters, `DEV_ADDR`, the input ports and what the host does next. -/
structure Untouched (s t : State) : Prop where
  params     : t.params = s.params
  devAddr    : t.devAddr = s.devAddr
  cmd        : t.cmd = s.cmd
  inCfg      : t.inCfg = s.inCfg
  inMe       : t.inMe = s.inMe
  inV        : t.inV = s.inV
  inReg      : t.inReg = s.inReg
  hostStream : t.hostStream = s.hostStream

/-- No transport call, and the session state as it was: R64's last row. -/
structure SessionKept (s t : State) : Prop where
  ready     : t.ready = s.ready
  lastValid : t.lastValid = s.lastValid
  lastReg   : t.lastReg = s.lastReg
  trace     : t.trace = s.trace
  answers   : t.answers = s.answers

/-! ### Good states and good runs -/

/-- The invariant of the machine: the parameters are admitted (R8) and place the registers where R56 does, `DEV_ADDR` is the
parameter (R21), `status` is a code that exists (R221), the voltage ports hold values of `VOLT_T` (R36), every call so far is legal (R28, R100) and every bare read was made with the retained pointer known, and
when `LAST_VALID = 1`, `LAST_REG` is a register of the map and is where the pointer of a device that retains it stands
(R21, R24). -/
structure State.Inv (s : State) : Prop where
  params    : s.params.wf = true
  map       : s.params.sourceMap = true
  devAddr   : s.devAddr = s.params.devAddr
  status    : s.status.toNat ≤ 4
  inV       : s.params.voltDomain.has s.inV = true
  outV      : s.params.voltDomain.has s.outV = true
  legal     : ∀ e ∈ s.trace, e.legal s.devAddr s.params.stopAfterData = true
  addressed : readsAddressed none s.trace = true
  lastReg   : s.lastValid = true → mapped s.lastReg = true ∧ devicePointer s.trace = some s.lastReg

/-- A caller error (60_exceptions.md R224): the last command ended `NotInitialized`. -/
def callerError (s : State) : Bool := s.status == Status.notInitialized.code

/-- A step of a safe run: the machine goes on, and the host made no caller error. -/
def SafeStep (s : State) : Prop := ∃ t, step s = .next t ∧ callerError t = false

end Sys2Proof.Machine
end

