-- ==== Sys2Proof/Certificates/Slice0/Obligations.lean ====
section
/-! DEFINITION. The statements for the provers, one `def Obligations.<Name> : Prop` each, listed in OBLIGATIONS.json. A
claim about a value the model chose, and not the spec, says so in its docstring. -/

open Sys2Proof Sys2Proof.Machine

/-! ### Encoding -/

/-- 30_encoding.md R90 to R92: the decoder gives back every command from its word, and a word that decodes is the word
of its command, up to the `arg` byte that format N ignores. That `encode` writes that byte as 0 is the model's choice
(log entry 11). -/
def Obligations.DecodeAndEncodeAgree : Prop :=
  (∀ i : Instr, decode (encode i) = .ok i) ∧
    ∀ (w : Word) (i : Instr), decode w = .ok i → encode i = if formatN i then w &&& 0xFF00 else w

/-- 95_test_vectors.md 2.4: words of every family, written out from R91 and R92, decode to the command they stand for. -/
def Obligations.SampleWordsDecode : Prop :=
  decode 0x0100 = .ok .packConfig ∧ decode 0x01FF = .ok .packConfig ∧ decode 0x0501 = .ok (.voltToReg 1) ∧
    decode 0x0607 = .ok (.regToVolt 7) ∧ decode 0x1000 = .ok .init ∧ decode 0x10A5 = .ok .init ∧
    decode 0x1200 = .ok .setConfig ∧ decode 0x2102 = .ok (.busVoltageV 2) ∧ decode 0x2303 = .ok (.setCritLimitV 3) ∧
    decode 0x2603 = .ok .shuntSumV ∧ decode 0x2C00 = .ok .setPvLowerV

/-- R91: "ignored: any value is accepted and has no effect". -/
def Obligations.FormatNArgumentIsIgnored : Prop :=
  ∀ i : Instr, formatN i = true → ∀ arg : Byte, decode (i.op ++ arg) = .ok i

/-- 60_exceptions.md R222, for the `op` values R95 lists: `InvalidArgument`, no transport call, no state change. The command's
`in_v` is a value of `VOLT_T`, as 10_state.md R36 says it is; it is not read. -/
def Obligations.ReservedOpcodeEndsInvalidArgument : Prop :=
  ∀ (s : State) (c : HostCommand) (rest : List HostInput), s.params.wf = true → s.hostStream = .command c :: rest →
    s.params.voltDomain.has c.inV = true →
    (let op := c.cmd.toNat / 256
     op = 0 ∨ (0x07 ≤ op ∧ op ≤ 0x0F) ∨ (0x15 ≤ op ∧ op ≤ 0x1F) ∨ 0x2D ≤ op) →
    ∃ t, step s = .next t ∧ t.status = 3 ∧ SessionKept s t ∧ t.params = s.params ∧ t.devAddr = s.devAddr ∧
      t.hostStream = rest

/-! ### The step -/

/-- 10_state.md R22, R27: when the host's next act is a command whose word decodes to `i`, and its `in_v` is a value of
`VOLT_T` (R36), a step is `exec i` of the state in which that command stands on the ports. -/
def Obligations.StepRunsDecodedCommand : Prop :=
  ∀ (s : State) (c : HostCommand) (rest : List HostInput) (i : Instr), s.params.wf = true →
    s.hostStream = .command c :: rest → s.params.voltDomain.has c.inV = true → decode c.cmd = .ok i →
    step s = exec i { s with
      cmd := c.cmd
      inCfg := c.inCfg
      inMe := c.inMe
      inV := c.inV
      inReg := c.inReg
      hostStream := rest }

/-- R22: with no command from the host the block waits. That waiting is a step that changes nothing is the model's
reading (log entry 5). -/
def Obligations.IdleBlockWaits : Prop :=
  ∀ s : State, s.params.wf = true → s.hostStream = [] → step s = .next s

/-- 70_reset_and_hazards.md R250: what a reset leaves, and that the first register read after it sends the address byte; a
reset issues no transport call (R251). -/
def Obligations.HostResetGivesResetState : Prop :=
  ∀ (s : State) (rest : List HostInput), s.params.wf = true → s.hostStream = .reset :: rest →
    ∃ t, step s = .next t ∧ t.devAddr = s.params.devAddr ∧ t.ready = false ∧ t.lastValid = false ∧
      t.params = s.params ∧ t.trace = s.trace ∧ t.answers = s.answers ∧ t.hostStream = rest ∧
      ∀ a, ∃ n more, (readReg a t).2.trace = t.trace ++ .write s.params.devAddr [a] false n :: more

/-- R250: the state after reset, for every parameter record; nothing has run and nothing is loaded. -/
def Obligations.ResetStateIsAsSpecified : Prop :=
  ∀ p : Params, (State.resetWith p).devAddr = p.devAddr ∧ (State.resetWith p).ready = false ∧
    (State.resetWith p).lastValid = false ∧ (State.resetWith p).trace = []

/-- 10_state.md R40: the reference scale table, cell by cell; and the machine's reset state has it. -/
def Obligations.ReferenceScaleTableIsTheSpecs : Prop :=
  State.reset.params.scale =
    { shunt    := ⟨1638 / 10000, 4095, 3⟩
      bus      := ⟨3276 / 100, 4095, 3⟩
      crit     := ⟨1638 / 10000, 4095, 3⟩
      warn     := ⟨1638 / 10000, 4095, 3⟩
      sum      := ⟨1638 / 10000, 4095, 2⟩
      sumLimit := ⟨1638 / 10000, 4095, 2⟩
      pvUpper  := ⟨10, 1250, 3⟩
      pvLower  := ⟨9, 1125, 3⟩ }

/-- 00_scope.md R8: a record that fails a condition is refused, and one that meets them all, has a bijective layout and
whose per-channel addresses do not wrap around is not. That a layout which is no bijection and a channel address above
`0xFF` are refused too is the model's (log entries 10 and 16). -/
def Obligations.IllFormedParametersAreRefused : Prop :=
  (∀ (s : State) (k : Kind),
      (let t := s.params.scale.get k
       ¬(0 < t.fsv) ∨ t.fsc < 1 ∨ 14 < t.shift ∨ 0x7FFF < t.fsc * 2 ^ t.shift) →
      step s = .refused .illFormedParams) ∧
    ∀ s : State,
      (∀ k : Kind,
        let t := s.params.scale.get k
        0 < t.fsv ∧ 1 ≤ t.fsc ∧ t.shift ≤ 14 ∧ t.fsc * 2 ^ t.shift ≤ 0x7FFF) →
      (∀ f g : MeFlag, s.params.meLayout.pos f = s.params.meLayout.pos g → f = g) →
      warnBase.toNat + s.params.chPeriod * (s.params.nchan - 1) ≤ 0xFF →
      step s ≠ .refused .illFormedParams

/-- 60_exceptions.md R230: "No operation is fatal to the process". With admitted parameters, and on `in_v` a value of `VOLT_T`
(10_state.md R36) that is no NaN, every step has a next state, whatever the transport answers. That every transport call
returns, so that a command always completes, is the model's choice (log entry 13; 70_reset_and_hazards.md R264, D30), not a
rule of the spec: a transport that hangs would falsify this. -/
def Obligations.AdmittedStepGoesOn : Prop :=
  ∀ s : State, s.params.wf = true →
    (∀ (c : HostCommand) (rest : List HostInput), s.hostStream = .command c :: rest →
      s.params.voltDomain.has c.inV = true ∧ c.inV ≠ .nan) →
    ∃ t, step s = .next t

/-! ### Codec: bit fields -/

/-- 40_codec_bitfield.md R121, with `|` read as `+`; the session state, the transport and the operands are unchanged. Nothing is
said of the result ports PACK_CONFIG does not write: UnwrittenResultPortsAreKept is about those (log entry 9). -/
def Obligations.PackConfigResult : Prop :=
  ∀ s : State, ∃ t, exec .packConfig s = .next t ∧ t.status = 0 ∧
    t.outReg.toNat =
      s.inCfg.rst.toNat * 32768 + s.inCfg.ch1En.toNat * 16384 + s.inCfg.ch2En.toNat * 8192 +
        s.inCfg.ch3En.toNat * 4096 + s.inCfg.avg.toNat * 512 + s.inCfg.busCt.toNat * 64 +
        s.inCfg.shuntCt.toNat * 8 + s.inCfg.mode.toNat ∧
    SessionKept s t ∧ Untouched s t

/-- R122: every field; the session state, the transport and the operands are unchanged. Nothing is said of the result ports
UNPACK_CONFIG does not write: UnwrittenResultPortsAreKept is about those (log entry 9). -/
def Obligations.UnpackConfigResult : Prop :=
  ∀ s : State, ∃ t, exec .unpackConfig s = .next t ∧ t.status = 0 ∧
    (let r := s.inReg.toNat
     t.outCfg.mode.toNat = r % 8 ∧ t.outCfg.shuntCt.toNat = r / 8 % 8 ∧ t.outCfg.busCt.toNat = r / 64 % 8 ∧
       t.outCfg.avg.toNat = r / 512 % 8 ∧ t.outCfg.ch3En.toNat = r / 4096 % 2 ∧ t.outCfg.ch2En.toNat = r / 8192 % 2 ∧
       t.outCfg.ch1En.toNat = r / 16384 % 2 ∧ t.outCfg.rst.toNat = r / 32768 % 2) ∧
    SessionKept s t ∧ Untouched s t

/-- R125 for every bijective layout: each flag stands at its position and bit 15 is 0; and the image under the layout of
10_state.md R34. -/
def Obligations.PackMaskEnableResult : Prop :=
  ∀ s : State, s.params.wf = true → ∃ t, exec .packMaskEnable s = .next t ∧ t.status = 0 ∧
    (∀ f : MeFlag, t.outReg.getLsbD (s.params.meLayout.pos f) = s.inMe.get f) ∧ t.outReg.getLsbD 15 = false ∧
    (s.params.meLayout = MeLayout.reference →
      t.outReg.toNat =
        s.inMe.scc1.toNat * 16384 + s.inMe.scc2.toNat * 8192 + s.inMe.scc3.toNat * 4096 + s.inMe.wen.toNat * 2048 +
          s.inMe.cen.toNat * 1024 + s.inMe.cf1.toNat * 512 + s.inMe.cf2.toNat * 256 + s.inMe.cf3.toNat * 128 +
          s.inMe.sf.toNat * 64 + s.inMe.wf1.toNat * 32 + s.inMe.wf2.toNat * 16 + s.inMe.wf3.toNat * 8 +
          s.inMe.pvf.toNat * 4 + s.inMe.tcf.toNat * 2 + s.inMe.cvrf.toNat) ∧
    SessionKept s t ∧ Untouched s t

/-- R126 for every layout, and under the layout of 10_state.md R34. -/
def Obligations.UnpackMaskEnableResult : Prop :=
  ∀ s : State, ∃ t, exec .unpackMaskEnable s = .next t ∧ t.status = 0 ∧
    (∀ f : MeFlag, t.outMe.get f = s.inReg.getLsbD (s.params.meLayout.pos f)) ∧
    (s.params.meLayout = MeLayout.reference →
      t.outMe.scc1 = s.inReg.getLsbD 14 ∧ t.outMe.scc2 = s.inReg.getLsbD 13 ∧ t.outMe.scc3 = s.inReg.getLsbD 12 ∧
        t.outMe.wen = s.inReg.getLsbD 11 ∧ t.outMe.cen = s.inReg.getLsbD 10 ∧ t.outMe.cf1 = s.inReg.getLsbD 9 ∧
        t.outMe.cf2 = s.inReg.getLsbD 8 ∧ t.outMe.cf3 = s.inReg.getLsbD 7 ∧ t.outMe.sf = s.inReg.getLsbD 6 ∧
        t.outMe.wf1 = s.inReg.getLsbD 5 ∧ t.outMe.wf2 = s.inReg.getLsbD 4 ∧ t.outMe.wf3 = s.inReg.getLsbD 3 ∧
        t.outMe.pvf = s.inReg.getLsbD 2 ∧ t.outMe.tcf = s.inReg.getLsbD 1 ∧ t.outMe.cvrf = s.inReg.getLsbD 0) ∧
    SessionKept s t ∧ Untouched s t

/-- R123: packing and unpacking a Configuration are inverse to each other, in both directions. -/
def Obligations.ConfigRoundTrip : Prop :=
  (∀ c : DeviceConfig, unpackConfig (packConfig c) = c) ∧ ∀ r : Word, packConfig (unpackConfig r) = r

/-- R124: changing one field changes only that field's bits. -/
def Obligations.ConfigFieldsAreIsolated : Prop :=
  ∀ (c : DeviceConfig) (k : BitVec 3) (b : Bool),
    packConfig { c with mode := k } = (packConfig c &&& ~~~(0x0007 : Word)) ||| k.setWidth 16 ∧
    packConfig { c with shuntCt := k } = (packConfig c &&& ~~~(0x0038 : Word)) ||| (k.setWidth 16 <<< 3) ∧
    packConfig { c with busCt := k } = (packConfig c &&& ~~~(0x01C0 : Word)) ||| (k.setWidth 16 <<< 6) ∧
    packConfig { c with avg := k } = (packConfig c &&& ~~~(0x0E00 : Word)) ||| (k.setWidth 16 <<< 9) ∧
    packConfig { c with ch3En := b } = (packConfig c &&& ~~~(0x1000 : Word)) ||| (if b then 0x1000 else 0) ∧
    packConfig { c with ch2En := b } = (packConfig c &&& ~~~(0x2000 : Word)) ||| (if b then 0x2000 else 0) ∧
    packConfig { c with ch1En := b } = (packConfig c &&& ~~~(0x4000 : Word)) ||| (if b then 0x4000 else 0) ∧
    packConfig { c with rst := b } = (packConfig c &&& 0x7FFF) ||| (if b then 0x8000 else 0)

/-- R127: the round trips of Mask/Enable, for every bijective layout; bit 15 is lost in the second. -/
def Obligations.MaskEnableRoundTrip : Prop :=
  ∀ l : MeLayout, l.wf = true →
    (∀ m : MaskEnable, unpackMaskEnable l (packMaskEnable l m) = m) ∧
      ∀ r : Word, packMaskEnable l (unpackMaskEnable l r) = r &&& 0x7FFF

/-! ### Codec: voltages -/

/-- 41_codec_voltage.md R147: the image VOLT_TO_REG gives. `raw` is the quotient truncated toward zero: no larger in
magnitude than the quotient, less than 1 away, and not of the other sign. -/
def Obligations.VoltToRegResult : Prop :=
  ∀ (s : State) (kind : Byte) (k : Kind) (v : Rat), s.params.wf = true → kind.toNat = kindNumber k →
    s.inV = .num v →
    let t := s.params.scale.get k
    let q := max (-t.fsv) (min v t.fsv) * t.fsc / t.fsv
    ∃ (raw : Int) (s' : State), |(raw : Rat)| ≤ |q| ∧ |q| < |(raw : Rat)| + 1 ∧ 0 ≤ (raw : Rat) * q ∧
      exec (.voltToReg kind) s = .next s' ∧ s'.status = 0 ∧
      (0 ≤ raw → (s'.outReg.toNat : Int) = raw * 2 ^ t.shift) ∧
      (raw < 0 → s.params.signMode = .signMag → (s'.outReg.toNat : Int) = 0x8000 + -raw * 2 ^ t.shift) ∧
      (raw < 0 → s.params.signMode = .twos → (s'.outReg.toNat : Int) = 0x10000 + raw * 2 ^ t.shift) ∧
      SessionKept s s' ∧ Untouched s s'

/-- R151, R152: the voltage REG_TO_VOLT gives. With `VOLT_T` the exact rationals it is the value of R151. In a floating-point
instance it is rounded once (R160), and that `out_v` is then `Config.round` of it, an open function, is the model's choice
(log entry 6): the spec fixes no format. -/
def Obligations.RegToVoltResult : Prop :=
  ∀ (s : State) (kind : Byte) (k : Kind), s.params.wf = true → kind.toNat = kindNumber k →
    let t := s.params.scale.get k
    let r := s.inReg.toNat
    let raw : Int :=
      match s.params.signMode with
      | .signMag => if 0x8000 ≤ r then -((r - 0x8000) / 2 ^ t.shift : Nat) else (r / 2 ^ t.shift : Nat)
      | .twos => (if 0x8000 ≤ r then (r : Int) - 0x10000 else r) / 2 ^ t.shift
    ∃ s', exec (.regToVolt kind) s = .next s' ∧ s'.status = 0 ∧
      s'.outV = roundVolt s.params.voltDomain (t.fsv * raw / t.fsc) ∧ SessionKept s s' ∧ Untouched s s'

/-- R150: where a voltage is encoded, by VOLT_TO_REG or a setter, a NaN is refused and an infinity acts as the full-scale
voltage of its sign. -/
def Obligations.NanIsRefusedAndInfinitiesClamp : Prop :=
  ∀ (i : Instr) (k : Kind) (s : State),
    ((∃ kind : Byte, i = .voltToReg kind ∧ kind.toNat = kindNumber k) ∨
      (s.ready = true ∧ ∃ a, voltSetter s.params i = some (k, a))) →
    (exec i { s with inV := .nan } = .refused .nanVoltage) ∧
    (∃ t, exec i { s with inV := .posInf } = .next t ∧
      exec i { s with inV := .num (s.params.scale.get k).fsv } =
        .next { t with inV := .num (s.params.scale.get k).fsv }) ∧
    (∃ t, exec i { s with inV := .negInf } = .next t ∧
      exec i { s with inV := .num (-(s.params.scale.get k).fsv) } =
        .next { t with inV := .num (-(s.params.scale.get k).fsv) })

/-- R156: the exact round trip on quantised voltages, for every admitted triple and both sign modes. -/
def Obligations.QuantisedVoltageRoundTrip : Prop :=
  ∀ (m : SignMode) (t : Scale) (k : Int), t.wf = true → -(t.fsc : Int) ≤ k → k ≤ t.fsc →
    r2v m t (v2r m t (k * t.fsv / t.fsc)) = k * t.fsv / t.fsc

/-- R155: within the range the round trip errs toward zero, by less than one LSB step; outside it saturates. -/
def Obligations.VoltageRoundTripWithinOneStep : Prop :=
  ∀ (m : SignMode) (t : Scale) (v : Rat), t.wf = true →
    let v' := r2v m t (v2r m t v)
    (-t.fsv ≤ v → v ≤ t.fsv → |v'| ≤ |v| ∧ 0 ≤ v' * v ∧ |v - v'| < t.fsv / t.fsc) ∧
      (t.fsv < v → v' = t.fsv) ∧ (v < -t.fsv → v' = -t.fsv)

/-- R157: inputs at or beyond full scale saturate. -/
def Obligations.VoltageSaturates : Prop :=
  ∀ (m : SignMode) (t : Scale) (d : Rat), t.wf = true → 0 ≤ d →
    v2r m t (t.fsv + d) = v2r m t t.fsv ∧ (v2r m t t.fsv).toNat = t.fsc * 2 ^ t.shift ∧
      v2r m t (-t.fsv - d) = v2r m t (-t.fsv)

/-- R149 (e): the images the encoder can produce, exactly. -/
def Obligations.EncoderImagesAreExactly : Prop :=
  ∀ (m : SignMode) (t : Scale) (r : Word), t.wf = true →
    ((∃ v, v2r m t v = r) ↔
      (∃ k, k ≤ t.fsc ∧ r.toNat = k * 2 ^ t.shift) ∨
        ∃ k, 1 ≤ k ∧ k ≤ t.fsc ∧
          r.toNat = match m with
            | .signMag => 0x8000 + k * 2 ^ t.shift
            | .twos => 0x10000 - k * 2 ^ t.shift)

/-- R158: an image in the encoder's range is given back by decoding and encoding it. -/
def Obligations.ImageRoundTrip : Prop :=
  ∀ (m : SignMode) (t : Scale) (r : Word), t.wf = true → (∃ v, v2r m t v = r) → v2r m t (r2v m t r) = r

/-- R149 (a), (b), (f), (g), (h): small magnitudes vanish and never give the image `0x8000` under `SIGNMAG`, the raw value
is monotonic and odd, and the padding bits of an image are 0. -/
def Obligations.EncoderIsMonotonicAndOdd : Prop :=
  ∀ (m : SignMode) (t : Scale) (v w : Rat), t.wf = true →
    v2r m t 0 = 0 ∧ (|v| < t.fsv / t.fsc → v2r m t v = 0) ∧ v2r .signMag t v ≠ 0x8000 ∧
      (v ≤ w → rawOf t v ≤ rawOf t w) ∧ rawOf t (-v) = -rawOf t v ∧
      (rawOf t v ≠ 0 → v2r .signMag t (-v) = v2r .signMag t v ^^^ 0x8000) ∧
      (v2r m t v).toNat % 2 ^ t.shift = 0

/-- R153 (a), (b), (d), (e): padding bits are ignored, negative zero is 0 V under `SIGNMAG`, the sign modes agree exactly on
the images with bit 15 clear or masked image `0xC000`, and a result is a whole number of LSB steps within the bounds. -/
def Obligations.DecoderCornerCases : Prop :=
  ∀ (t : Scale) (r r' : Word), t.wf = true →
    (∀ m, r.toNat / 2 ^ t.shift = r'.toNat / 2 ^ t.shift → r2v m t r = r2v m t r') ∧ r2v .signMag t 0x8000 = 0 ∧
      (r2v .signMag t r = r2v .twos t r ↔ r.getLsbD 15 = false ∨ r &&& fieldMask t.shift = 0xC000) ∧
      (r.getLsbD 15 = true → r2v .signMag t r ≤ 0 ∧ r2v .twos t r < 0) ∧
      (∃ k : Int, -(0x7FFF / 2 ^ t.shift : Nat) ≤ k ∧ k ≤ (0x7FFF / 2 ^ t.shift : Nat) ∧
        r2v .signMag t r = k * (t.fsv / t.fsc)) ∧
      ∃ k : Int, -(0x8000 / 2 ^ t.shift : Nat) ≤ k ∧ k ≤ (0x7FFF / 2 ^ t.shift : Nat) ∧
        r2v .twos t r = k * (t.fsv / t.fsc)

/-! ### Argument and session checks -/

/-- 60_exceptions.md R223: an invalid channel or kind ends `InvalidArgument` in either session state, with no transport call
and no state change; with a valid argument no command ends so. With the source's `NCHAN` of 3 the invalid channels are 0 and
4 to 255 (00_scope.md R7). -/
def Obligations.InvalidArgumentIsExactlyABadArgument : Prop :=
  (∀ (i : Instr) (s : State), i.argValid s.params.nchan = false →
      ∃ t, exec i s = .next t ∧ t.status = 3 ∧ SessionKept s t ∧ Untouched s t) ∧
    (∀ (i : Instr) (s t : State), i.argValid s.params.nchan = true → exec i s = .next t → t.status ≠ 3) ∧
    (∀ i : Instr, hasChannel i = true → (i.argValid 3 = false ↔ i.arg.toNat = 0 ∨ 4 ≤ i.arg.toNat)) ∧
    (∀ (n : Nat) (kind : Byte), (Instr.voltToReg kind).argValid n = false ↔ 8 ≤ kind.toNat) ∧
    (∀ (n : Nat) (kind : Byte), (Instr.regToVolt kind).argValid n = false ↔ 8 ≤ kind.toNat) ∧
    ∀ (n : Nat) (i : Instr), formatN i = true → i.argValid n = true

/-- R224: a sequencer command other than INIT with `READY = 0` ends `NotInitialized`, with no transport call and no state
change; the codec operations never do. -/
def Obligations.NotInitializedWithoutSession : Prop :=
  (∀ (i : Instr) (s : State), needsSession i = true → i.argValid s.params.nchan = true → s.ready = false →
      ∃ t, exec i s = .next t ∧ t.status = 4 ∧ SessionKept s t ∧ Untouched s t) ∧
    ∀ (i : Instr) (s t : State), isCodec i = true → exec i s = .next t → t.status ≠ 4

/-- 40_codec_bitfield.md R120, 41_codec_voltage.md R140: a codec operation does the same whatever the session state, the
trace and the transport are, and carries them along. -/
def Obligations.CodecIgnoresTheSession : Prop :=
  ∀ (i : Instr) (s : State) (ready lastValid : Bool) (lastReg : RegAddr) (trace : List Event) (answers : List Answer),
    isCodec i = true →
    let s' := { s with ready := ready, lastValid := lastValid, lastReg := lastReg, trace := trace, answers := answers }
    (∀ r, exec i s = .refused r → exec i s' = .refused r) ∧
      ∀ t, exec i s = .next t →
        exec i s' = .next { t with
          ready := ready, lastValid := lastValid, lastReg := lastReg, trace := trace, answers := answers }

/-! ### Register access -/

/-- 20_memory.md R59: the byte order. -/
def Obligations.ImagesTravelHighByteFirst : Prop :=
  (∀ v : Word, (hiByte v).toNat = v.toNat / 256 ∧ (loByte v).toNat = v.toNat % 256) ∧
    ∀ b0 b1 : Byte, (imageOf b0 b1).toNat = b0.toNat * 256 + b1.toNat

/-- R58: the per-channel address, with no wrap-around: for every admitted record, and with the source's three channels and
period of 2 (00_scope.md R7), where the rows of the getters and setters are those of R56. -/
def Obligations.ChannelAddressIsBasePlusPeriod : Prop :=
  (∀ (p : Params) (base : RegAddr) (ch : Byte), p.wf = true → base ∈ [shuntBase, busBase, critBase, warnBase] →
      1 ≤ ch.toNat → ch.toNat ≤ p.nchan →
      (chanAddr p.chPeriod base ch).toNat = base.toNat + p.chPeriod * (ch.toNat - 1)) ∧
    (∀ (base : RegAddr) (ch : Byte), base ∈ [shuntBase, busBase, critBase, warnBase] → 1 ≤ ch.toNat → ch.toNat ≤ 3 →
      (chanAddr 2 base ch).toNat = base.toNat + 2 * (ch.toNat - 1) ∧ (chanAddr 2 base ch).toNat ≤ 0x0C ∧
        shuntBase = 0x01 ∧ busBase = 0x02 ∧ critBase = 0x07 ∧ warnBase = 0x08) ∧
    ∀ p : Params, p.nchan = 3 → p.chPeriod = 2 →
      let rows (row : Byte → Option (Kind × RegAddr)) := [1, 2, 3].map row
      let row (k : Kind) (a1 a2 a3 : RegAddr) := [some (k, a1), some (k, a2), some (k, a3)]
      rows (fun ch => voltGetter p (.shuntVoltageV ch)) = row .shunt 0x01 0x03 0x05 ∧
        rows (fun ch => voltGetter p (.busVoltageV ch)) = row .bus 0x02 0x04 0x06 ∧
        rows (fun ch => voltGetter p (.getCritLimitV ch)) = row .crit 0x07 0x09 0x0B ∧
        rows (fun ch => voltSetter p (.setCritLimitV ch)) = row .crit 0x07 0x09 0x0B ∧
        rows (fun ch => voltGetter p (.getWarnLimitV ch)) = row .warn 0x08 0x0A 0x0C ∧
        rows (fun ch => voltSetter p (.setWarnLimitV ch)) = row .warn 0x08 0x0A 0x0C

/-- R60: the register read sequence, case by case. A call succeeds here if and only if its count is the count asked for; R60
calls a count below it a failure, and that one above it is a failure too is the model's choice (log entry 12) among what R54
and D17 allow. -/
def Obligations.ReadSequence : Prop :=
  ∀ (a : RegAddr) (s : State),
    let hit := s.lastValid = true ∧ s.lastReg = a
    let r := (readReg a s).1
    let t := (readReg a s).2
    let ans0 := s.answer 0
    let ans1 := s.answer 1
    let address := Event.write s.devAddr [a] false ans0.count
    let data0 := Event.read s.devAddr 2 s.params.stopAfterData ans0.count [ans0.b0, ans0.b1]
    let data1 := Event.read s.devAddr 2 s.params.stopAfterData ans1.count [ans1.b0, ans1.b1]
    (hit → ans0.count = 2 →
      r = some (BitVec.ofNat 16 (ans0.b0.toNat * 256 + ans0.b1.toNat)) ∧ t.trace = s.trace ++ [data0] ∧
        t.lastValid = true ∧ t.lastReg = a) ∧
    (hit → ans0.count ≠ 2 → r = none ∧ t.trace = s.trace ++ [data0] ∧ t.lastValid = false ∧ t.lastReg = s.lastReg) ∧
    (¬hit → ans0.count ≠ 1 →
      r = none ∧ t.trace = s.trace ++ [address] ∧ t.lastValid = false ∧ t.lastReg = s.lastReg) ∧
    (¬hit → ans0.count = 1 → ans1.count ≠ 2 →
      r = none ∧ t.trace = s.trace ++ [address, data1] ∧ t.lastValid = false ∧ t.lastReg = s.lastReg) ∧
    (¬hit → ans0.count = 1 → ans1.count = 2 →
      r = some (BitVec.ofNat 16 (ans1.b0.toNat * 256 + ans1.b1.toNat)) ∧ t.trace = s.trace ++ [address, data1] ∧
        t.lastValid = true ∧ t.lastReg = a) ∧
    t.ready = s.ready ∧ Untouched s t

/-- R62: the register write sequence, case by case. R62 calls a count below 3 a failure, and that one above 3 is a failure too
is the model's choice (log entry 12) among what R54 and D17 allow. -/
def Obligations.WriteSequence : Prop :=
  ∀ (a : RegAddr) (v : Word) (s : State),
    let ok := (writeReg a v s).1
    let t := (writeReg a v s).2
    let n := (s.answer 0).count
    t.trace = s.trace ++
        [.write s.devAddr [a, BitVec.ofNat 8 (v.toNat / 256), BitVec.ofNat 8 (v.toNat % 256)]
          s.params.stopAfterData n] ∧
      (n = 3 → ok = true ∧ t.lastValid = true ∧ t.lastReg = a) ∧
      (n ≠ 3 → ok = false ∧ t.lastValid = false ∧ t.lastReg = s.lastReg) ∧ t.ready = s.ready ∧ Untouched s t

/-! ### Getters and setters -/

/-- 43_session_voltage.md R191 with R194 to R197, R199, R201, R203, R205: every voltage getter, on the slow and the fast path.
With `VOLT_T` the exact rationals `out_v` is the `R2V` of the image read (R191). In a floating-point instance it is rounded
once (10_state.md R36, R160), and that it is then `Config.round` of it, an open function, is the model's choice (log entry
6). -/
def Obligations.VoltageGetterResult : Prop :=
  ∀ (i : Instr) (k : Kind) (a : RegAddr) (s : State), voltGetter s.params i = some (k, a) → s.ready = true →
    let value (ans : Answer) :=
      roundVolt s.params.voltDomain
        (r2v s.params.signMode (s.params.scale.get k) (BitVec.ofNat 16 (ans.b0.toNat * 256 + ans.b1.toNat)))
    let data (ans : Answer) := Event.read s.devAddr 2 s.params.stopAfterData 2 [ans.b0, ans.b1]
    (¬(s.lastValid = true ∧ s.lastReg = a) → (s.answer 0).count = 1 → (s.answer 1).count = 2 →
      ∃ t, exec i s = .next t ∧ t.status = 0 ∧ t.outV = value (s.answer 1) ∧
        t.trace = s.trace ++ [.write s.devAddr [a] false 1, data (s.answer 1)] ∧
        t.ready = true ∧ t.lastValid = true ∧ t.lastReg = a ∧ Untouched s t) ∧
    (s.lastValid = true → s.lastReg = a → (s.answer 0).count = 2 →
      ∃ t, exec i s = .next t ∧ t.status = 0 ∧ t.outV = value (s.answer 0) ∧
        t.trace = s.trace ++ [data (s.answer 0)] ∧
        t.ready = true ∧ t.lastValid = true ∧ t.lastReg = a ∧ Untouched s t)

/-- 42_session_control.md R175, R177: GET_CONFIG and GET_MASK_ENABLE, on the slow and the fast path. -/
def Obligations.RegisterGetterResult : Prop :=
  ∀ (i : Instr) (a : RegAddr) (s : State), (i = .getConfig ∧ a = 0x00) ∨ (i = .getMaskEnable ∧ a = 0x0F) →
    s.ready = true →
    let image (ans : Answer) : Word := BitVec.ofNat 16 (ans.b0.toNat * 256 + ans.b1.toNat)
    let delivered (t : State) (ans : Answer) :=
      (i = .getConfig → t.outCfg = unpackConfig (image ans)) ∧
        (i = .getMaskEnable → t.outMe = unpackMaskEnable s.params.meLayout (image ans))
    let data (ans : Answer) := Event.read s.devAddr 2 s.params.stopAfterData 2 [ans.b0, ans.b1]
    (¬(s.lastValid = true ∧ s.lastReg = a) → (s.answer 0).count = 1 → (s.answer 1).count = 2 →
      ∃ t, exec i s = .next t ∧ t.status = 0 ∧ delivered t (s.answer 1) ∧
        t.trace = s.trace ++ [.write s.devAddr [a] false 1, data (s.answer 1)] ∧
        t.ready = true ∧ t.lastValid = true ∧ t.lastReg = a ∧ Untouched s t) ∧
    (s.lastValid = true → s.lastReg = a → (s.answer 0).count = 2 →
      ∃ t, exec i s = .next t ∧ t.status = 0 ∧ delivered t (s.answer 0) ∧
        t.trace = s.trace ++ [data (s.answer 0)] ∧
        t.ready = true ∧ t.lastValid = true ∧ t.lastReg = a ∧ Untouched s t)

/-- R192 with R198, R200, R202, R204, R206: every voltage setter writes the image of its voltage, high byte first. -/
def Obligations.VoltageSetterResult : Prop :=
  ∀ (i : Instr) (k : Kind) (a : RegAddr) (v : Rat) (s : State), voltSetter s.params i = some (k, a) → s.ready = true →
    s.inV = .num v → (s.answer 0).count = 3 →
    let w := (v2r s.params.signMode (s.params.scale.get k) v).toNat
    ∃ t, exec i s = .next t ∧ t.status = 0 ∧
      t.trace = s.trace ++
        [.write s.devAddr [a, BitVec.ofNat 8 (w / 256), BitVec.ofNat 8 (w % 256)] s.params.stopAfterData 3] ∧
      t.ready = true ∧ t.lastValid = true ∧ t.lastReg = a ∧ Untouched s t

/-- R176, R178: SET_CONFIG and SET_MASK_ENABLE write the image of their record, `rst` as given. -/
def Obligations.RegisterSetterResult : Prop :=
  ∀ (i : Instr) (a : RegAddr) (w : Word) (s : State),
    (i = .setConfig ∧ a = 0x00 ∧ w = packConfig s.inCfg) ∨
      (i = .setMaskEnable ∧ a = 0x0F ∧ w = packMaskEnable s.params.meLayout s.inMe) →
    s.ready = true → (s.answer 0).count = 3 →
    ∃ t, exec i s = .next t ∧ t.status = 0 ∧
      t.trace = s.trace ++
        [.write s.devAddr [a, BitVec.ofNat 8 (w.toNat / 256), BitVec.ofNat 8 (w.toNat % 256)]
          s.params.stopAfterData 3] ∧
      t.ready = true ∧ t.lastValid = true ∧ t.lastReg = a ∧ Untouched s t

/-- 60_exceptions.md R225 for the getters: the command stops at the call that failed, on each path (20_memory.md R61). R225
speaks of a short count; that a count above the request is a failure too is the model's choice (log entry 12) among what
R54 and D17 allow. -/
def Obligations.GetterStopsAtFailedCall : Prop :=
  ∀ (i : Instr) (a : RegAddr) (s : State), readTarget s.params i = some a → s.ready = true →
    let ans0 := s.answer 0
    let ans1 := s.answer 1
    let address := Event.write s.devAddr [a] false ans0.count
    let data (ans : Answer) := Event.read s.devAddr 2 s.params.stopAfterData ans.count [ans.b0, ans.b1]
    let failed (calls : List Event) :=
      ∃ t, exec i s = .next t ∧ t.status = 1 ∧ t.trace = s.trace ++ calls ∧ t.ready = true ∧ t.lastValid = false ∧
        Untouched s t
    (¬(s.lastValid = true ∧ s.lastReg = a) → ans0.count ≠ 1 → failed [address]) ∧
      (¬(s.lastValid = true ∧ s.lastReg = a) → ans0.count = 1 → ans1.count ≠ 2 → failed [address, data ans1]) ∧
      (s.lastValid = true → s.lastReg = a → ans0.count ≠ 2 → failed [data ans0])

/-- R225 for the setters: the one framed write failed. R225 speaks of a short count; that a count above 3 is a failure too is
the model's choice (log entry 12) among what R54 and D17 allow. -/
def Obligations.SetterReportsFailedWrite : Prop :=
  ∀ (i : Instr) (a : RegAddr) (w : Word) (s : State), writeTarget s.params i = some a → setterWord i s = some w →
    s.ready = true → (s.answer 0).count ≠ 3 →
    ∃ t, exec i s = .next t ∧ t.status = 1 ∧
      t.trace = s.trace ++
        [.write s.devAddr [a, BitVec.ofNat 8 (w.toNat / 256), BitVec.ofNat 8 (w.toNat % 256)]
          s.params.stopAfterData (s.answer 0).count] ∧
      t.ready = true ∧ t.lastValid = false ∧ Untouched s t

/-! ### INIT -/

/-- 42_session_control.md R171, R172, with the words of R173: the exits of INIT, in order. First, exit 1 at the address phase
of the identification read; then, for either path of that read, exit 1 at its data phase and exits 2 to 5. `n` is the number
of calls before the data read. `ID_REG` is `0xFF` in the reference instance (00_scope.md R7). R171 and R172 speak of a call
that fails; that a count above the request is such a failure is the model's choice (log entry 12) among what R54 and D17
allow. -/
def Obligations.InitExitTable : Prop :=
  ∀ s : State,
    let hit := s.lastValid = true ∧ s.lastReg = s.params.idReg
    (¬hit → (s.answer 0).count ≠ 1 →
      ∃ t, exec .init s = .next t ∧ t.status = 1 ∧
        t.trace = s.trace ++ [.write s.devAddr [s.params.idReg] false (s.answer 0).count] ∧ t.ready = false ∧
        t.lastValid = false ∧ Untouched s t) ∧
    ∀ (n : Nat) (before : List Event),
      (hit ∧ n = 0 ∧ before = []) ∨
        (¬hit ∧ (s.answer 0).count = 1 ∧ n = 1 ∧ before = [.write s.devAddr [s.params.idReg] false 1]) →
      let id := s.answer n
      let data := Event.read s.devAddr 2 s.params.stopAfterData id.count [id.b0, id.b1]
      let framed (w : Word) (m : Int) :=
        Event.write s.devAddr [0x00, BitVec.ofNat 8 (w.toNat / 256), BitVec.ofNat 8 (w.toNat % 256)]
          s.params.stopAfterData m
      let first := framed s.params.initResetWord (s.answer (n + 1)).count
      let second := framed (packConfig s.inCfg &&& 0x7FFF) (s.answer (n + 2)).count
      let image : Word := BitVec.ofNat 16 (id.b0.toNat * 256 + id.b1.toNat)
      let ends (status : BitVec 3) (calls : List Event) (p : State → Prop) :=
        ∃ t, exec .init s = .next t ∧ t.status = status ∧ t.trace = s.trace ++ before ++ calls ∧ p t ∧ Untouched s t
      (id.count ≠ 2 → ends 1 [data] fun t => t.ready = false ∧ t.lastValid = false) ∧
        (id.count = 2 → image ≠ s.params.expectedId →
          ends 2 [data] fun t => t.ready = false ∧ t.lastValid = true ∧ t.lastReg = s.params.idReg) ∧
        (id.count = 2 → image = s.params.expectedId → (s.answer (n + 1)).count ≠ 3 →
          ends 1 [data, first] fun t => t.ready = false ∧ t.lastValid = false) ∧
        (id.count = 2 → image = s.params.expectedId → (s.answer (n + 1)).count = 3 → (s.answer (n + 2)).count ≠ 3 →
          ends 1 [data, first, second] fun t => t.ready = false ∧ t.lastValid = false) ∧
        (id.count = 2 → image = s.params.expectedId → (s.answer (n + 1)).count = 3 → (s.answer (n + 2)).count = 3 →
          ends 0 [data, first, second] fun t => t.ready = true ∧ t.lastValid = true ∧ t.lastReg = 0x00)

/-- R174: INIT does the same in either session state. -/
def Obligations.InitRunsInEitherState : Prop :=
  ∀ (s : State) (b : Bool), exec .init { s with ready := b } = exec .init s

/-! ### The whole machine -/

/-- 60_exceptions.md R227: the status of a command is the first that applies. A call failed when its count is not the count
asked for; that a count above it is a failure too is the model's choice (log entry 12; R54, D17). -/
def Obligations.StatusPriority : Prop :=
  ∀ (s t : State) (c : HostCommand) (rest : List HostInput), s.params.wf = true →
    s.hostStream = .command c :: rest → step s = .next t →
    t.status =
      match decode c.cmd with
      | .error _ => 3
      | .ok i =>
        if i.argValid s.params.nchan = false then 3
        else if needsSession i = true ∧ s.ready = false then 4
        else if (newCalls s t).any (fun e => !e.ok) then 1
        else if i = .init ∧ firstImage (newCalls s t) ≠ some s.params.expectedId then 2
        else 0

/-- R229: the session state after each status. A call whose count is above the request has failed here (log entry 12, the
model's choice; R54, D17). -/
def Obligations.StateAfterEachStatus : Prop :=
  ∀ (i : Instr) (s t : State), exec i s = .next t →
    (t.status = 3 → SessionKept s t) ∧
      (t.status = 4 → needsSession i = true ∧ s.ready = false ∧ SessionKept s t) ∧
      (t.status = 1 → t.lastValid = false ∧ ((i = .init ∧ t.ready = false) ∨
        (needsSession i = true ∧ s.ready = true ∧ t.ready = true)) ∧
        ∃ e, (newCalls s t).getLast? = some e ∧ e.ok = false) ∧
      (t.status = 2 → i = .init ∧ t.ready = false ∧ t.lastValid = true ∧ t.lastReg = s.params.idReg ∧
        writtenRegs (newCalls s t) = []) ∧
      (t.status = 0 → isCodec i = true → SessionKept s t) ∧
      (t.status = 0 → ∀ a, readTarget s.params i = some a ∨ writeTarget s.params i = some a →
        s.ready = true ∧ t.ready = true ∧ t.lastValid = true ∧ t.lastReg = a) ∧
      (t.status = 0 → i = .init → t.ready = true ∧ t.lastValid = true ∧ t.lastReg = 0x00)

/-- R232: `Ready` is entered only by an INIT that ended `Ok`, and left only by an INIT that did not, or by a reset. -/
def Obligations.ReadyChangesOnlyByInitOrReset : Prop :=
  ∀ s t : State, step s = .next t →
    (s.ready = false → t.ready = true → t.status = 0 ∧
      ∃ c rest, s.hostStream = .command c :: rest ∧ decode c.cmd = .ok .init) ∧
      (s.ready = true → t.ready = false → (∃ rest, s.hostStream = .reset :: rest) ∨
        (t.status ≠ 0 ∧ ∃ c rest, s.hostStream = .command c :: rest ∧ decode c.cmd = .ok .init))

/-- 70_reset_and_hazards.md R253: `LAST_VALID` goes back to 0 only by a failed transport call, or by a reset. A call whose
count is above the request has failed here (log entry 12, the model's choice; R54, D17). -/
def Obligations.LastValidClearedOnlyByFailureOrReset : Prop :=
  ∀ s t : State, step s = .next t → s.lastValid = true → t.lastValid = false →
    (∃ rest, s.hostStream = .reset :: rest) ∨
      (t.status = 1 ∧ ∃ e, (newCalls s t).getLast? = some e ∧ e.ok = false)

/-- 20_memory.md R68 (d) and 60_exceptions.md R225: a step only appends to what the transport has seen, at most four calls, and
every call but the last of a command succeeded. A call whose count is above the request did not (log entry 12, the model's
choice; R54, D17). -/
def Obligations.CallsAreAppendedAndStopAtFailure : Prop :=
  ∀ s t : State, step s = .next t →
    t.trace = s.trace ++ newCalls s t ∧ (newCalls s t).length ≤ 4 ∧ ∀ e ∈ (newCalls s t).dropLast, e.ok = true

/-- R266: the number of transport calls of a command that ended `Ok`. -/
def Obligations.CallsPerCommand : Prop :=
  ∀ (i : Instr) (s t : State), exec i s = .next t → t.status = 0 →
    (isCodec i = true → newCalls s t = []) ∧
      (∀ a, readTarget s.params i = some a →
        (newCalls s t).length = if s.lastValid = true ∧ s.lastReg = a then 1 else 2) ∧
      (∀ a, writeTarget s.params i = some a → (newCalls s t).length = 1) ∧
      (i = .init → (newCalls s t).length = if s.lastValid = true ∧ s.lastReg = s.params.idReg then 3 else 4)

/-- 20_memory.md R67: which registers a command writes. No other register of the device is written. -/
def Obligations.CommandWritesOnlyItsRegister : Prop :=
  ∀ (i : Instr) (s t : State), exec i s = .next t →
    (writeTarget s.params i = none → i ≠ .init → writtenRegs (newCalls s t) = []) ∧
      (∀ a, writeTarget s.params i = some a → writtenRegs (newCalls s t) = if s.ready = true then [a] else []) ∧
      (i = .init → writtenRegs (newCalls s t) <+: [0x00, 0x00]) ∧
      (i = .init → t.status = 0 → writtenRegs (newCalls s t) = [0x00, 0x00])

/-- 10_state.md R21, R26: no command changes the parameters, `DEV_ADDR`, its operands or what the host does next; and from a
good state no step changes the parameters or `DEV_ADDR`. -/
def Obligations.CommandLeavesOperandsAlone : Prop :=
  (∀ (i : Instr) (s t : State), exec i s = .next t → Untouched s t) ∧
    ∀ s t : State, s.Inv → step s = .next t → t.params = s.params ∧ t.devAddr = s.devAddr

/-- A result port that a command does not write keeps its value when the command ends `Ok`: the model's reading of R27 and
R191 (log entry 9), not a rule of the spec. -/
def Obligations.UnwrittenResultPortsAreKept : Prop :=
  ∀ (i : Instr) (s t : State), exec i s = .next t → t.status = 0 →
    (i ≠ .unpackConfig → i ≠ .getConfig → t.outCfg = s.outCfg) ∧
      (i ≠ .unpackMaskEnable → i ≠ .getMaskEnable → t.outMe = s.outMe) ∧
      ((∀ kind, i ≠ .regToVolt kind) → voltGetter s.params i = none → t.outV = s.outV) ∧
      (i ≠ .packConfig → i ≠ .packMaskEnable → (∀ kind, i ≠ .voltToReg kind) → t.outReg = s.outReg)

/-! ### The last-register record -/

/-- R61 (c): after a getter that ended `Ok`, the same register is read again by one data read and no address phase; a getter
of another register in between that ended `Ok` forces an address phase. -/
def Obligations.RepeatedReadSkipsTheAddress : Prop :=
  ∀ (i i' j : Instr) (a b : RegAddr) (s t u v : State), readTarget s.params i = some a →
    readTarget s.params i' = some a → readTarget s.params j = some b → exec i s = .next t → t.status = 0 →
    (exec i' t = .next u →
      ∃ n b0 b1, newCalls t u = [.read t.devAddr 2 t.params.stopAfterData n [b0, b1]]) ∧
      (a ≠ b → exec j t = .next u → u.status = 0 → exec i' u = .next v →
        ∃ n more, newCalls u v = .write u.devAddr [a] false n :: more)

/-- R63: after a setter that ended `Ok`, a getter of the same register takes the fast path; so does GET_CONFIG after INIT. -/
def Obligations.ReadAfterWriteSkipsTheAddress : Prop :=
  ∀ (i j : Instr) (a : RegAddr) (s t u : State), (writeTarget s.params i = some a ∨ (i = .init ∧ a = 0x00)) →
    readTarget s.params j = some a → exec i s = .next t → t.status = 0 → exec j t = .next u →
    ∃ n b0 b1, newCalls t u = [.read t.devAddr 2 t.params.stopAfterData n [b0, b1]]

/-- 10_state.md R24, 20_memory.md R53: from a good state, whichever path a getter takes, its data read is made when the pointer
of a device that retains it stands at the command's register. -/
def Obligations.GetterReadsItsOwnRegister : Prop :=
  ∀ (i : Instr) (a : RegAddr) (s t : State), s.Inv → readTarget s.params i = some a → exec i s = .next t → t.status = 0 →
    ∃ n b0 b1, t.trace = t.trace.dropLast ++ [.read s.devAddr 2 s.params.stopAfterData n [b0, b1]] ∧
      devicePointer t.trace.dropLast = some a

/-- R21: `LAST_REG` is never read while `LAST_VALID = 0`. Two states that differ in it alone take steps that differ in it alone,
and not even in it once `LAST_VALID` is 1 again. -/
def Obligations.LastRegIsNotReadWhileInvalid : Prop :=
  ∀ (s : State) (a : RegAddr), s.lastValid = false →
    (∀ r, step s = .refused r → step { s with lastReg := a } = .refused r) ∧
      ∀ t, step s = .next t →
        ∃ b, step { s with lastReg := a } = .next { t with lastReg := b } ∧ (t.lastValid = true → b = t.lastReg)

/-! ### The invariant -/

/-- The reset state meets the invariant, for every admitted parameter record that places the registers where R56 does, and the
reference record is one. The values the invariant speaks of that R250 does not give, a `status` port of 0 and an empty trace, are the model's (log entries
3 and 7). -/
def Obligations.ResetIsAGoodState : Prop :=
  (∀ p : Params, p.wf = true → p.sourceMap = true → (State.resetWith p).Inv) ∧ State.reset.Inv

/-- Every step from a good state, reachable or not, leads to a good state. -/
def Obligations.StepKeepsGoodStates : Prop :=
  ∀ s t : State, s.Inv → step s = .next t → t.Inv

/-! ### The parameters and their domain -/

/-- 00_scope.md R7, column 3, with the layout of R34's table: the reference instance, which the reset state carries. The scale
table is ReferenceScaleTableIsTheSpecs, and `DEV_ADDR` is open. -/
def Obligations.ReferenceParametersAreTheSpecs : Prop :=
  let p := State.reset.params
  p.expectedId = 0x3220 ∧ p.idReg = 0xFF ∧ p.nchan = 3 ∧ p.chPeriod = 2 ∧ p.voltDomain = .rational ∧
    p.signMode = .signMag ∧ p.initResetWord = 0x8000 ∧ p.stopAfterData = true ∧ p.sourceMap = true ∧
    MeFlag.all.map (fun f => (p.meLayout.pos f).val) = [14, 13, 12, 11, 10, 9, 8, 7, 6, 5, 4, 3, 2, 1, 0] ∧
    ∀ ch : Byte, validChannel p.nchan ch = true ↔ ch = 1 ∨ ch = 2 ∨ ch = 3

/-- 10_state.md R36 and 41_codec_voltage.md R150: with `VOLT_T` the exact rationals the rule of non-numeric inputs is vacuous. No
step refuses a NaN, and a step whose voltage ports hold numbers leaves numbers on them. That a command which presents no
number is refused as `notAVoltage` is the model's way to say that no host can present one (log entry 6). -/
def Obligations.RationalPortsHoldNumbers : Prop :=
  ∀ s : State, s.params.wf = true → s.params.voltDomain = .rational →
    step s ≠ .refused .nanVoltage ∧
      (∀ (c : HostCommand) (rest : List HostInput), s.hostStream = .command c :: rest → (∀ q, c.inV ≠ .num q) →
        step s = .refused .notAVoltage) ∧
      ∀ t : State, step s = .next t → (∃ q, s.inV = .num q) → (∃ q, s.outV = .num q) →
        (∃ q, t.inV = .num q) ∧ ∃ q, t.outV = .num q
end

