-- ==== Sys2Proof/Laws/Bits.lean ====
section
/-! SUPPORT. The two halves of a 16-bit word as numbers (30_encoding.md R91, 20_memory.md R59), and what joining and taking
them apart do. -/

namespace Sys2Proof

theorem toNat_join (a b : Byte) : (a ++ b : Word).toNat = a.toNat * 256 + b.toNat := by
  have h : (a ++ b : Word).toNat = a.toNat <<< 8 ||| b.toNat := BitVec.toNat_append a b
  rw [h, ← Nat.shiftLeft_add_eq_or_of_lt b.isLt, Nat.shiftLeft_eq]

theorem toNat_high (w : Word) : (w.extractLsb' 8 8).toNat = w.toNat / 256 := by
  have := w.isLt
  rw [BitVec.extractLsb'_toNat, Nat.shiftRight_eq_div_pow]
  omega

theorem toNat_low (w : Word) : (w.extractLsb' 0 8).toNat = w.toNat % 256 := by
  rw [BitVec.extractLsb'_toNat, Nat.shiftRight_zero]

@[simp] theorem opField_join (a b : Byte) : opField (a ++ b) = a := by
  have := b.isLt
  apply BitVec.eq_of_toNat_eq
  rw [opField, toNat_high, toNat_join]
  omega

@[simp] theorem argField_join (a b : Byte) : argField (a ++ b) = b := by
  have := b.isLt
  apply BitVec.eq_of_toNat_eq
  rw [argField, toNat_low, toNat_join]
  omega

theorem join_fields (w : Word) : (opField w ++ argField w : Word) = w := by
  apply BitVec.eq_of_toNat_eq
  rw [toNat_join, opField, argField, toNat_high, toNat_low]
  omega

namespace Machine

theorem toNat_hiByte (v : Word) : (hiByte v).toNat = v.toNat / 256 := toNat_high v

theorem toNat_loByte (v : Word) : (loByte v).toNat = v.toNat % 256 := toNat_low v

theorem toNat_imageOf (b0 b1 : Byte) : (imageOf b0 b1).toNat = b0.toNat * 256 + b1.toNat := toNat_join b0 b1

/-- The image of the two bytes of a word is the word (R59). -/
theorem imageOf_bytes (v : Word) : imageOf (hiByte v) (loByte v) = v := join_fields v

theorem hiByte_eq (v : Word) : hiByte v = BitVec.ofNat 8 (v.toNat / 256) := by
  have := v.isLt
  apply BitVec.eq_of_toNat_eq
  rw [toNat_hiByte, BitVec.toNat_ofNat]
  omega

theorem loByte_eq (v : Word) : loByte v = BitVec.ofNat 8 (v.toNat % 256) := by
  apply BitVec.eq_of_toNat_eq
  rw [toNat_loByte, BitVec.toNat_ofNat]
  omega

theorem imageOf_eq (b0 b1 : Byte) : imageOf b0 b1 = BitVec.ofNat 16 (b0.toNat * 256 + b1.toNat) := by
  have := b0.isLt
  have := b1.isLt
  apply BitVec.eq_of_toNat_eq
  rw [toNat_imageOf, BitVec.toNat_ofNat]
  omega

end Machine

end Sys2Proof
end

