-- ==== Sys2Proof/Laws/BitField.lean ====
section
/-! SUPPORT. The packer and unpacker bit by bit (40_codec_bitfield.md R121, R125, R126), and a word as the sum of its bits. -/

namespace Sys2Proof.Machine

/-- A 16-bit word is the sum of its bits (00_scope.md R9). -/
theorem toNat_eq_bits (w : Word) :
    w.toNat =
      (w.getLsbD 0).toNat + 2 * (w.getLsbD 1).toNat + 4 * (w.getLsbD 2).toNat + 8 * (w.getLsbD 3).toNat +
        16 * (w.getLsbD 4).toNat + 32 * (w.getLsbD 5).toNat + 64 * (w.getLsbD 6).toNat +
        128 * (w.getLsbD 7).toNat + 256 * (w.getLsbD 8).toNat + 512 * (w.getLsbD 9).toNat +
        1024 * (w.getLsbD 10).toNat + 2048 * (w.getLsbD 11).toNat + 4096 * (w.getLsbD 12).toNat +
        8192 * (w.getLsbD 13).toNat + 16384 * (w.getLsbD 14).toNat + 32768 * (w.getLsbD 15).toNat := by
  have hw := w.isLt
  simp only [BitVec.getLsbD, Nat.toNat_testBit]
  omega

/-- A flag moved to position `n` is that one bit. -/
theorem getLsbD_bit_shift (b : Bool) (n j : Nat) : (bit b <<< n).getLsbD j = (decide (j = n ∧ j < 16) && b) := by
  unfold bit
  rw [BitVec.getLsbD_shiftLeft, BitVec.getLsbD_setWidth, BitVec.getLsbD_ofBool]
  by_cases h : j = n
  · subst h
    by_cases h16 : j < 16 <;> simp [h16]
  · by_cases h2 : j < n
    · simp [h, h2]
    · have h0 : ¬j - n = 0 := by omega
      simp [h, h2, h0]

/-- A 3-bit field moved to position `n` is its three bits. -/
theorem getLsbD_field_shift (k : BitVec 3) (n j : Nat) :
    (k.setWidth 16 <<< n).getLsbD j = (decide (n ≤ j ∧ j < 16) && k.getLsbD (j - n)) := by
  rw [BitVec.getLsbD_shiftLeft, BitVec.getLsbD_setWidth]
  by_cases h : n ≤ j
  · by_cases h16 : j < 16
    · simp [h, h16, Nat.not_lt.mpr h, show j - n < 16 by omega]
    · simp [h16]
  · simp [h, Nat.lt_of_not_le h]

/-- Every bit of a packed Configuration (10_state.md R30). -/
theorem packConfig_getLsbD (c : DeviceConfig) (j : Nat) :
    (packConfig c).getLsbD j =
      if j < 3 then c.mode.getLsbD j
      else if j < 6 then c.shuntCt.getLsbD (j - 3)
      else if j < 9 then c.busCt.getLsbD (j - 6)
      else if j < 12 then c.avg.getLsbD (j - 9)
      else if j = 12 then c.ch3En
      else if j = 13 then c.ch2En
      else if j = 14 then c.ch1En
      else if j = 15 then c.rst
      else false := by
  have mode : (c.mode.setWidth 16).getLsbD j = (decide (j < 16) && c.mode.getLsbD j) := BitVec.getLsbD_setWidth ..
  unfold packConfig
  simp only [BitVec.getLsbD_or, getLsbD_bit_shift, getLsbD_field_shift, mode]
  by_cases h : 16 ≤ j
  · simp [show ¬j < 16 by omega, show ¬j < 3 by omega, show ¬j < 6 by omega, show ¬j < 9 by omega,
      show ¬j < 12 by omega, show ¬j = 12 by omega, show ¬j = 13 by omega, show ¬j = 14 by omega,
      show ¬j = 15 by omega]
  · have cases16 : j = 0 ∨ j = 1 ∨ j = 2 ∨ j = 3 ∨ j = 4 ∨ j = 5 ∨ j = 6 ∨ j = 7 ∨ j = 8 ∨ j = 9 ∨ j = 10 ∨ j = 11 ∨
        j = 12 ∨ j = 13 ∨ j = 14 ∨ j = 15 := by omega
    rcases cases16 with h | h | h | h | h | h | h | h | h | h | h | h | h | h | h | h <;> subst h <;> simp

theorem mem_allFlags (f : MeFlag) : f ∈ MeFlag.all := by cases f <;> decide

/-- In an admitted layout no two flags share a position (R34). -/
theorem layout_injective {l : MeLayout} (h : l.wf = true) : Function.Injective l.pos := fun f g hfg =>
  List.inj_on_of_nodup_map (of_decide_eq_true h) (mem_allFlags f) (mem_allFlags g) hfg

/-- Every bit of a packed Mask/Enable: it is set if and only if a set flag stands there (R125). -/
theorem packMaskEnable_getLsbD (l : MeLayout) (m : MaskEnable) (j : Nat) :
    (packMaskEnable l m).getLsbD j = MeFlag.all.any fun f => decide (j = (l.pos f).val) && m.get f := by
  have fold : ∀ (fs : List MeFlag) (w : Word),
      (fs.foldl (fun w f => w ||| (bit (m.get f) <<< (l.pos f).val)) w).getLsbD j =
        (w.getLsbD j || fs.any fun f => decide (j = (l.pos f).val) && m.get f) := by
    intro fs
    induction fs with
    | nil => simp
    | cons f fs ih =>
      intro w
      have hp := (l.pos f).isLt
      have hj : (j = (l.pos f).val ∧ j < 16) ↔ j = (l.pos f).val := ⟨fun h => h.1, fun h => ⟨h, by omega⟩⟩
      rw [List.foldl_cons, ih, BitVec.getLsbD_or, getLsbD_bit_shift, List.any_cons, Bool.or_assoc]
      simp only [hj]
  unfold packMaskEnable
  rw [fold]
  simp

theorem packMaskEnable_pos {l : MeLayout} (h : l.wf = true) (m : MaskEnable) (f : MeFlag) :
    (packMaskEnable l m).getLsbD (l.pos f) = m.get f := by
  rw [packMaskEnable_getLsbD, Bool.eq_iff_iff, List.any_eq_true]
  constructor
  · rintro ⟨g, -, hg⟩
    simp only [Bool.and_eq_true, decide_eq_true_eq] at hg
    rw [layout_injective h (Fin.ext hg.1)]
    exact hg.2
  · exact fun hf => ⟨f, (mem_allFlags f), by simp [hf]⟩

/-- Bit 15 of a packed Mask/Enable is 0 (R35). -/
theorem packMaskEnable_top (l : MeLayout) (m : MaskEnable) {j : Nat} (h : 15 ≤ j) :
    (packMaskEnable l m).getLsbD j = false := by
  rw [packMaskEnable_getLsbD, List.any_eq_false]
  intro f _ hf
  have := (l.pos f).isLt
  simp only [Bool.and_eq_true, decide_eq_true_eq] at hf
  omega

theorem unpackMaskEnable_get (l : MeLayout) (r : Word) (f : MeFlag) :
    (unpackMaskEnable l r).get f = r.getLsbD (l.pos f) := by cases f <;> rfl

theorem maskEnable_ext {m m' : MaskEnable} (h : ∀ f, m.get f = m'.get f) : m = m' := by
  obtain ⟨⟩ := m
  obtain ⟨⟩ := m'
  simp only [MaskEnable.mk.injEq]
  exact ⟨h .scc1, h .scc2, h .scc3, h .wen, h .cen, h .cf1, h .cf2, h .cf3, h .sf, h .wf1, h .wf2, h .wf3, h .pvf,
    h .tcf, h .cvrf⟩

/-- In an admitted layout every position below 15 carries a flag (R34: a bijection). -/
theorem layout_surjective {l : MeLayout} (h : l.wf = true) (x : Fin 15) : ∃ f, l.pos f = x := by
  have nodup : (MeFlag.all.map l.pos).Nodup := of_decide_eq_true h
  have full : (MeFlag.all.map l.pos).toFinset = Finset.univ := by
    apply Finset.eq_univ_of_card
    rw [List.toFinset_card_of_nodup nodup]
    simp [MeFlag.all]
  have hx : x ∈ (MeFlag.all.map l.pos).toFinset := full ▸ Finset.mem_univ x
  obtain ⟨f, -, hf⟩ := List.mem_map.1 (List.mem_toFinset.1 hx)
  exact ⟨f, hf⟩

end Sys2Proof.Machine
end

