-- ==== Sys2Proof/Laws/State.lean ====
section
/-! SUPPORT. What each named update of the state does to each field, one lemma per field, true by `rfl`, so that no later
proof unfolds an update. -/

namespace Sys2Proof.Machine

variable (s : State)

/-! ### `raise` -/

@[simp] theorem raise_params (e : Status) : (raise e s).params = s.params := rfl
@[simp] theorem raise_devAddr (e : Status) : (raise e s).devAddr = s.devAddr := rfl
@[simp] theorem raise_ready (e : Status) : (raise e s).ready = s.ready := rfl
@[simp] theorem raise_lastValid (e : Status) : (raise e s).lastValid = s.lastValid := rfl
@[simp] theorem raise_lastReg (e : Status) : (raise e s).lastReg = s.lastReg := rfl
@[simp] theorem raise_cmd (e : Status) : (raise e s).cmd = s.cmd := rfl
@[simp] theorem raise_inCfg (e : Status) : (raise e s).inCfg = s.inCfg := rfl
@[simp] theorem raise_inMe (e : Status) : (raise e s).inMe = s.inMe := rfl
@[simp] theorem raise_inV (e : Status) : (raise e s).inV = s.inV := rfl
@[simp] theorem raise_inReg (e : Status) : (raise e s).inReg = s.inReg := rfl
@[simp] theorem raise_status (e : Status) : (raise e s).status = e.code := rfl
@[simp] theorem raise_outCfg (e : Status) : (raise e s).outCfg = Config.freeCfg s.fresh := rfl
@[simp] theorem raise_outMe (e : Status) : (raise e s).outMe = Config.freeMe s.fresh := rfl
@[simp] theorem raise_outV (e : Status) : (raise e s).outV = anyVolt s.params.voltDomain s.fresh := rfl
@[simp] theorem raise_outReg (e : Status) : (raise e s).outReg = Config.freeReg s.fresh := rfl
@[simp] theorem raise_hostStream (e : Status) : (raise e s).hostStream = s.hostStream := rfl
@[simp] theorem raise_answers (e : Status) : (raise e s).answers = s.answers := rfl
@[simp] theorem raise_trace (e : Status) : (raise e s).trace = s.trace := rfl
@[simp] theorem raise_fresh (e : Status) : (raise e s).fresh = s.fresh + 1 := rfl

/-! ### `finish` -/

@[simp] theorem finish_params : (finish s).params = s.params := rfl
@[simp] theorem finish_devAddr : (finish s).devAddr = s.devAddr := rfl
@[simp] theorem finish_ready : (finish s).ready = s.ready := rfl
@[simp] theorem finish_lastValid : (finish s).lastValid = s.lastValid := rfl
@[simp] theorem finish_lastReg : (finish s).lastReg = s.lastReg := rfl
@[simp] theorem finish_cmd : (finish s).cmd = s.cmd := rfl
@[simp] theorem finish_inCfg : (finish s).inCfg = s.inCfg := rfl
@[simp] theorem finish_inMe : (finish s).inMe = s.inMe := rfl
@[simp] theorem finish_inV : (finish s).inV = s.inV := rfl
@[simp] theorem finish_inReg : (finish s).inReg = s.inReg := rfl
@[simp] theorem finish_status : (finish s).status = Status.ok.code := rfl
@[simp] theorem finish_outCfg : (finish s).outCfg = s.outCfg := rfl
@[simp] theorem finish_outMe : (finish s).outMe = s.outMe := rfl
@[simp] theorem finish_outV : (finish s).outV = s.outV := rfl
@[simp] theorem finish_outReg : (finish s).outReg = s.outReg := rfl
@[simp] theorem finish_hostStream : (finish s).hostStream = s.hostStream := rfl
@[simp] theorem finish_answers : (finish s).answers = s.answers := rfl
@[simp] theorem finish_trace : (finish s).trace = s.trace := rfl
@[simp] theorem finish_fresh : (finish s).fresh = s.fresh := rfl

/-! ### `setReady` -/

@[simp] theorem setReady_params (b : Bool) : (s.setReady b).params = s.params := rfl
@[simp] theorem setReady_devAddr (b : Bool) : (s.setReady b).devAddr = s.devAddr := rfl
@[simp] theorem setReady_ready (b : Bool) : (s.setReady b).ready = b := rfl
@[simp] theorem setReady_lastValid (b : Bool) : (s.setReady b).lastValid = s.lastValid := rfl
@[simp] theorem setReady_lastReg (b : Bool) : (s.setReady b).lastReg = s.lastReg := rfl
@[simp] theorem setReady_cmd (b : Bool) : (s.setReady b).cmd = s.cmd := rfl
@[simp] theorem setReady_inCfg (b : Bool) : (s.setReady b).inCfg = s.inCfg := rfl
@[simp] theorem setReady_inMe (b : Bool) : (s.setReady b).inMe = s.inMe := rfl
@[simp] theorem setReady_inV (b : Bool) : (s.setReady b).inV = s.inV := rfl
@[simp] theorem setReady_inReg (b : Bool) : (s.setReady b).inReg = s.inReg := rfl
@[simp] theorem setReady_status (b : Bool) : (s.setReady b).status = s.status := rfl
@[simp] theorem setReady_outCfg (b : Bool) : (s.setReady b).outCfg = s.outCfg := rfl
@[simp] theorem setReady_outMe (b : Bool) : (s.setReady b).outMe = s.outMe := rfl
@[simp] theorem setReady_outV (b : Bool) : (s.setReady b).outV = s.outV := rfl
@[simp] theorem setReady_outReg (b : Bool) : (s.setReady b).outReg = s.outReg := rfl
@[simp] theorem setReady_hostStream (b : Bool) : (s.setReady b).hostStream = s.hostStream := rfl
@[simp] theorem setReady_answers (b : Bool) : (s.setReady b).answers = s.answers := rfl
@[simp] theorem setReady_trace (b : Bool) : (s.setReady b).trace = s.trace := rfl
@[simp] theorem setReady_fresh (b : Bool) : (s.setReady b).fresh = s.fresh := rfl

/-! ### `setLast` -/

@[simp] theorem setLast_params (a : RegAddr) : (s.setLast a).params = s.params := rfl
@[simp] theorem setLast_devAddr (a : RegAddr) : (s.setLast a).devAddr = s.devAddr := rfl
@[simp] theorem setLast_ready (a : RegAddr) : (s.setLast a).ready = s.ready := rfl
@[simp] theorem setLast_lastValid (a : RegAddr) : (s.setLast a).lastValid = true := rfl
@[simp] theorem setLast_lastReg (a : RegAddr) : (s.setLast a).lastReg = a := rfl
@[simp] theorem setLast_cmd (a : RegAddr) : (s.setLast a).cmd = s.cmd := rfl
@[simp] theorem setLast_inCfg (a : RegAddr) : (s.setLast a).inCfg = s.inCfg := rfl
@[simp] theorem setLast_inMe (a : RegAddr) : (s.setLast a).inMe = s.inMe := rfl
@[simp] theorem setLast_inV (a : RegAddr) : (s.setLast a).inV = s.inV := rfl
@[simp] theorem setLast_inReg (a : RegAddr) : (s.setLast a).inReg = s.inReg := rfl
@[simp] theorem setLast_status (a : RegAddr) : (s.setLast a).status = s.status := rfl
@[simp] theorem setLast_outCfg (a : RegAddr) : (s.setLast a).outCfg = s.outCfg := rfl
@[simp] theorem setLast_outMe (a : RegAddr) : (s.setLast a).outMe = s.outMe := rfl
@[simp] theorem setLast_outV (a : RegAddr) : (s.setLast a).outV = s.outV := rfl
@[simp] theorem setLast_outReg (a : RegAddr) : (s.setLast a).outReg = s.outReg := rfl
@[simp] theorem setLast_hostStream (a : RegAddr) : (s.setLast a).hostStream = s.hostStream := rfl
@[simp] theorem setLast_answers (a : RegAddr) : (s.setLast a).answers = s.answers := rfl
@[simp] theorem setLast_trace (a : RegAddr) : (s.setLast a).trace = s.trace := rfl
@[simp] theorem setLast_fresh (a : RegAddr) : (s.setLast a).fresh = s.fresh := rfl

/-! ### `invalidateLast` -/

@[simp] theorem invalidateLast_params : (s.invalidateLast).params = s.params := rfl
@[simp] theorem invalidateLast_devAddr : (s.invalidateLast).devAddr = s.devAddr := rfl
@[simp] theorem invalidateLast_ready : (s.invalidateLast).ready = s.ready := rfl
@[simp] theorem invalidateLast_lastValid : (s.invalidateLast).lastValid = false := rfl
@[simp] theorem invalidateLast_lastReg : (s.invalidateLast).lastReg = s.lastReg := rfl
@[simp] theorem invalidateLast_cmd : (s.invalidateLast).cmd = s.cmd := rfl
@[simp] theorem invalidateLast_inCfg : (s.invalidateLast).inCfg = s.inCfg := rfl
@[simp] theorem invalidateLast_inMe : (s.invalidateLast).inMe = s.inMe := rfl
@[simp] theorem invalidateLast_inV : (s.invalidateLast).inV = s.inV := rfl
@[simp] theorem invalidateLast_inReg : (s.invalidateLast).inReg = s.inReg := rfl
@[simp] theorem invalidateLast_status : (s.invalidateLast).status = s.status := rfl
@[simp] theorem invalidateLast_outCfg : (s.invalidateLast).outCfg = s.outCfg := rfl
@[simp] theorem invalidateLast_outMe : (s.invalidateLast).outMe = s.outMe := rfl
@[simp] theorem invalidateLast_outV : (s.invalidateLast).outV = s.outV := rfl
@[simp] theorem invalidateLast_outReg : (s.invalidateLast).outReg = s.outReg := rfl
@[simp] theorem invalidateLast_hostStream : (s.invalidateLast).hostStream = s.hostStream := rfl
@[simp] theorem invalidateLast_answers : (s.invalidateLast).answers = s.answers := rfl
@[simp] theorem invalidateLast_trace : (s.invalidateLast).trace = s.trace := rfl
@[simp] theorem invalidateLast_fresh : (s.invalidateLast).fresh = s.fresh := rfl

/-! ### `popAnswer` -/

@[simp] theorem popAnswer_params : (s.popAnswer).params = s.params := rfl
@[simp] theorem popAnswer_devAddr : (s.popAnswer).devAddr = s.devAddr := rfl
@[simp] theorem popAnswer_ready : (s.popAnswer).ready = s.ready := rfl
@[simp] theorem popAnswer_lastValid : (s.popAnswer).lastValid = s.lastValid := rfl
@[simp] theorem popAnswer_lastReg : (s.popAnswer).lastReg = s.lastReg := rfl
@[simp] theorem popAnswer_cmd : (s.popAnswer).cmd = s.cmd := rfl
@[simp] theorem popAnswer_inCfg : (s.popAnswer).inCfg = s.inCfg := rfl
@[simp] theorem popAnswer_inMe : (s.popAnswer).inMe = s.inMe := rfl
@[simp] theorem popAnswer_inV : (s.popAnswer).inV = s.inV := rfl
@[simp] theorem popAnswer_inReg : (s.popAnswer).inReg = s.inReg := rfl
@[simp] theorem popAnswer_status : (s.popAnswer).status = s.status := rfl
@[simp] theorem popAnswer_outCfg : (s.popAnswer).outCfg = s.outCfg := rfl
@[simp] theorem popAnswer_outMe : (s.popAnswer).outMe = s.outMe := rfl
@[simp] theorem popAnswer_outV : (s.popAnswer).outV = s.outV := rfl
@[simp] theorem popAnswer_outReg : (s.popAnswer).outReg = s.outReg := rfl
@[simp] theorem popAnswer_hostStream : (s.popAnswer).hostStream = s.hostStream := rfl
@[simp] theorem popAnswer_answers : (s.popAnswer).answers = s.answers.tail := rfl
@[simp] theorem popAnswer_trace : (s.popAnswer).trace = s.trace := rfl
@[simp] theorem popAnswer_fresh : (s.popAnswer).fresh = if s.answers.isEmpty then s.fresh + 1 else s.fresh := rfl

/-! ### `tWrite` -/

@[simp] theorem tWrite_params (bytes : List Byte) (stop : Bool) : (tWrite bytes stop s).params = s.params := rfl
@[simp] theorem tWrite_devAddr (bytes : List Byte) (stop : Bool) : (tWrite bytes stop s).devAddr = s.devAddr := rfl
@[simp] theorem tWrite_ready (bytes : List Byte) (stop : Bool) : (tWrite bytes stop s).ready = s.ready := rfl
@[simp] theorem tWrite_lastValid (bytes : List Byte) (stop : Bool) : (tWrite bytes stop s).lastValid = s.lastValid := rfl
@[simp] theorem tWrite_lastReg (bytes : List Byte) (stop : Bool) : (tWrite bytes stop s).lastReg = s.lastReg := rfl
@[simp] theorem tWrite_cmd (bytes : List Byte) (stop : Bool) : (tWrite bytes stop s).cmd = s.cmd := rfl
@[simp] theorem tWrite_inCfg (bytes : List Byte) (stop : Bool) : (tWrite bytes stop s).inCfg = s.inCfg := rfl
@[simp] theorem tWrite_inMe (bytes : List Byte) (stop : Bool) : (tWrite bytes stop s).inMe = s.inMe := rfl
@[simp] theorem tWrite_inV (bytes : List Byte) (stop : Bool) : (tWrite bytes stop s).inV = s.inV := rfl
@[simp] theorem tWrite_inReg (bytes : List Byte) (stop : Bool) : (tWrite bytes stop s).inReg = s.inReg := rfl
@[simp] theorem tWrite_status (bytes : List Byte) (stop : Bool) : (tWrite bytes stop s).status = s.status := rfl
@[simp] theorem tWrite_outCfg (bytes : List Byte) (stop : Bool) : (tWrite bytes stop s).outCfg = s.outCfg := rfl
@[simp] theorem tWrite_outMe (bytes : List Byte) (stop : Bool) : (tWrite bytes stop s).outMe = s.outMe := rfl
@[simp] theorem tWrite_outV (bytes : List Byte) (stop : Bool) : (tWrite bytes stop s).outV = s.outV := rfl
@[simp] theorem tWrite_outReg (bytes : List Byte) (stop : Bool) : (tWrite bytes stop s).outReg = s.outReg := rfl
@[simp] theorem tWrite_hostStream (bytes : List Byte) (stop : Bool) : (tWrite bytes stop s).hostStream = s.hostStream := rfl
@[simp] theorem tWrite_answers (bytes : List Byte) (stop : Bool) : (tWrite bytes stop s).answers = s.answers.tail := rfl
@[simp] theorem tWrite_trace (bytes : List Byte) (stop : Bool) : (tWrite bytes stop s).trace = s.trace ++ [.write s.devAddr bytes stop (s.answer 0).count] := rfl
@[simp] theorem tWrite_fresh (bytes : List Byte) (stop : Bool) : (tWrite bytes stop s).fresh = if s.answers.isEmpty then s.fresh + 1 else s.fresh := rfl

/-! ### `tRead` -/

@[simp] theorem tRead_params (stop : Bool) : (tRead stop s).params = s.params := rfl
@[simp] theorem tRead_devAddr (stop : Bool) : (tRead stop s).devAddr = s.devAddr := rfl
@[simp] theorem tRead_ready (stop : Bool) : (tRead stop s).ready = s.ready := rfl
@[simp] theorem tRead_lastValid (stop : Bool) : (tRead stop s).lastValid = s.lastValid := rfl
@[simp] theorem tRead_lastReg (stop : Bool) : (tRead stop s).lastReg = s.lastReg := rfl
@[simp] theorem tRead_cmd (stop : Bool) : (tRead stop s).cmd = s.cmd := rfl
@[simp] theorem tRead_inCfg (stop : Bool) : (tRead stop s).inCfg = s.inCfg := rfl
@[simp] theorem tRead_inMe (stop : Bool) : (tRead stop s).inMe = s.inMe := rfl
@[simp] theorem tRead_inV (stop : Bool) : (tRead stop s).inV = s.inV := rfl
@[simp] theorem tRead_inReg (stop : Bool) : (tRead stop s).inReg = s.inReg := rfl
@[simp] theorem tRead_status (stop : Bool) : (tRead stop s).status = s.status := rfl
@[simp] theorem tRead_outCfg (stop : Bool) : (tRead stop s).outCfg = s.outCfg := rfl
@[simp] theorem tRead_outMe (stop : Bool) : (tRead stop s).outMe = s.outMe := rfl
@[simp] theorem tRead_outV (stop : Bool) : (tRead stop s).outV = s.outV := rfl
@[simp] theorem tRead_outReg (stop : Bool) : (tRead stop s).outReg = s.outReg := rfl
@[simp] theorem tRead_hostStream (stop : Bool) : (tRead stop s).hostStream = s.hostStream := rfl
@[simp] theorem tRead_answers (stop : Bool) : (tRead stop s).answers = s.answers.tail := rfl
@[simp] theorem tRead_trace (stop : Bool) : (tRead stop s).trace = s.trace ++ [.read s.devAddr 2 stop (s.answer 0).count [(s.answer 0).b0, (s.answer 0).b1]] := rfl
@[simp] theorem tRead_fresh (stop : Bool) : (tRead stop s).fresh = if s.answers.isEmpty then s.fresh + 1 else s.fresh := rfl

/-! ### `blockReset` -/

@[simp] theorem blockReset_params : (blockReset s).params = s.params := rfl
@[simp] theorem blockReset_devAddr : (blockReset s).devAddr = s.params.devAddr := rfl
@[simp] theorem blockReset_ready : (blockReset s).ready = false := rfl
@[simp] theorem blockReset_lastValid : (blockReset s).lastValid = false := rfl
@[simp] theorem blockReset_lastReg : (blockReset s).lastReg = Config.freeAddr s.fresh := rfl
@[simp] theorem blockReset_cmd : (blockReset s).cmd = s.cmd := rfl
@[simp] theorem blockReset_inCfg : (blockReset s).inCfg = s.inCfg := rfl
@[simp] theorem blockReset_inMe : (blockReset s).inMe = s.inMe := rfl
@[simp] theorem blockReset_inV : (blockReset s).inV = s.inV := rfl
@[simp] theorem blockReset_inReg : (blockReset s).inReg = s.inReg := rfl
@[simp] theorem blockReset_status : (blockReset s).status = s.status := rfl
@[simp] theorem blockReset_outCfg : (blockReset s).outCfg = Config.freeCfg s.fresh := rfl
@[simp] theorem blockReset_outMe : (blockReset s).outMe = Config.freeMe s.fresh := rfl
@[simp] theorem blockReset_outV : (blockReset s).outV = anyVolt s.params.voltDomain s.fresh := rfl
@[simp] theorem blockReset_outReg : (blockReset s).outReg = Config.freeReg s.fresh := rfl
@[simp] theorem blockReset_hostStream : (blockReset s).hostStream = s.hostStream := rfl
@[simp] theorem blockReset_answers : (blockReset s).answers = s.answers := rfl
@[simp] theorem blockReset_trace : (blockReset s).trace = s.trace := rfl
@[simp] theorem blockReset_fresh : (blockReset s).fresh = s.fresh + 1 := rfl

/-! ### `present` -/

@[simp] theorem present_params (c : HostCommand) (rest : List HostInput) : (present c rest s).params = s.params := rfl
@[simp] theorem present_devAddr (c : HostCommand) (rest : List HostInput) : (present c rest s).devAddr = s.devAddr := rfl
@[simp] theorem present_ready (c : HostCommand) (rest : List HostInput) : (present c rest s).ready = s.ready := rfl
@[simp] theorem present_lastValid (c : HostCommand) (rest : List HostInput) : (present c rest s).lastValid = s.lastValid := rfl
@[simp] theorem present_lastReg (c : HostCommand) (rest : List HostInput) : (present c rest s).lastReg = s.lastReg := rfl
@[simp] theorem present_cmd (c : HostCommand) (rest : List HostInput) : (present c rest s).cmd = c.cmd := rfl
@[simp] theorem present_inCfg (c : HostCommand) (rest : List HostInput) : (present c rest s).inCfg = c.inCfg := rfl
@[simp] theorem present_inMe (c : HostCommand) (rest : List HostInput) : (present c rest s).inMe = c.inMe := rfl
@[simp] theorem present_inV (c : HostCommand) (rest : List HostInput) : (present c rest s).inV = c.inV := rfl
@[simp] theorem present_inReg (c : HostCommand) (rest : List HostInput) : (present c rest s).inReg = c.inReg := rfl
@[simp] theorem present_status (c : HostCommand) (rest : List HostInput) : (present c rest s).status = s.status := rfl
@[simp] theorem present_outCfg (c : HostCommand) (rest : List HostInput) : (present c rest s).outCfg = s.outCfg := rfl
@[simp] theorem present_outMe (c : HostCommand) (rest : List HostInput) : (present c rest s).outMe = s.outMe := rfl
@[simp] theorem present_outV (c : HostCommand) (rest : List HostInput) : (present c rest s).outV = s.outV := rfl
@[simp] theorem present_outReg (c : HostCommand) (rest : List HostInput) : (present c rest s).outReg = s.outReg := rfl
@[simp] theorem present_hostStream (c : HostCommand) (rest : List HostInput) : (present c rest s).hostStream = rest := rfl
@[simp] theorem present_answers (c : HostCommand) (rest : List HostInput) : (present c rest s).answers = s.answers := rfl
@[simp] theorem present_trace (c : HostCommand) (rest : List HostInput) : (present c rest s).trace = s.trace := rfl
@[simp] theorem present_fresh (c : HostCommand) (rest : List HostInput) : (present c rest s).fresh = s.fresh := rfl

end Sys2Proof.Machine
end

