-- ==== Sys2Proof/Laws/Ops.lean ====
section
/-! SUPPORT. What each shared operation can do, said once: the transport's answers, the two register access sequences
(20_memory.md R60, R62), and the getter and setter templates. Later proofs cite these and unfold nothing. -/

namespace Sys2Proof.Machine

variable (s : State)

/-! ### Answers -/

@[simp] theorem answer_popAnswer (k : Nat) : s.popAnswer.answer k = s.answer (k + 1) := by
  unfold State.answer State.popAnswer
  cases h : s.answers with
  | nil => simp; congr 1; omega
  | cons a rest => simp

/-- `answer` looks at the listed answers and the count of free values alone. -/
theorem answer_congr {s t : State} (ha : t.answers = s.answers) (hf : t.fresh = s.fresh) (k : Nat) :
    t.answer k = s.answer k := by
  unfold State.answer; rw [ha, hf]

@[simp] theorem answer_tWrite (bytes : List Byte) (stop : Bool) (k : Nat) :
    (tWrite bytes stop s).answer k = s.answer (k + 1) := by
  rw [← answer_popAnswer]; exact answer_congr rfl rfl k

@[simp] theorem answer_tRead (stop : Bool) (k : Nat) : (tRead stop s).answer k = s.answer (k + 1) := by
  rw [← answer_popAnswer]; exact answer_congr rfl rfl k

@[simp] theorem answer_setLast (a : RegAddr) (k : Nat) : (s.setLast a).answer k = s.answer k := answer_congr rfl rfl k

@[simp] theorem answer_invalidateLast (k : Nat) : s.invalidateLast.answer k = s.answer k := answer_congr rfl rfl k

@[simp] theorem answer_setReady (b : Bool) (k : Nat) : (s.setReady b).answer k = s.answer k := answer_congr rfl rfl k

@[simp] theorem callOk_iff (k : Int) (a : Answer) : callOk k a = true ↔ a.count = k := by simp [callOk]

theorem hits_iff (a : RegAddr) : s.hits a = true ↔ s.lastValid = true ∧ s.lastReg = a := by simp [State.hits]

/-! ### `ReadReg` and `WriteReg`, one equation per path -/

/-- The event of an address phase (30_encoding.md R100), with the count it was answered. -/
def addrEvent (s : State) (a : RegAddr) (n : Int) : Event := .write s.devAddr [a] false n

/-- The event of a data read, with its answer. -/
def dataEvent (s : State) (ans : Answer) : Event :=
  .read s.devAddr 2 s.params.stopAfterData ans.count [ans.b0, ans.b1]

/-- The event of a framed write, with the count it was answered. -/
def frameEvent (s : State) (a : RegAddr) (v : Word) (n : Int) : Event :=
  .write s.devAddr [a, hiByte v, loByte v] s.params.stopAfterData n

theorem readReg_fast_ok {a : RegAddr} (h : s.hits a = true) (h0 : (s.answer 0).count = 2) :
    readReg a s =
      (some (imageOf (s.answer 0).b0 (s.answer 0).b1), (tRead s.params.stopAfterData s).setLast a) := by
  simp [readReg, dataPhase, h, callOk, h0]

theorem readReg_fast_fail {a : RegAddr} (h : s.hits a = true) (h0 : (s.answer 0).count ≠ 2) :
    readReg a s = (none, (tRead s.params.stopAfterData s).invalidateLast) := by
  simp [readReg, dataPhase, h, callOk, h0]

theorem readReg_address_fail {a : RegAddr} (h : s.hits a = false) (h0 : (s.answer 0).count ≠ 1) :
    readReg a s = (none, (tWrite [a] false s).invalidateLast) := by
  simp [readReg, h, callOk, h0]

theorem readReg_slow_ok {a : RegAddr} (h : s.hits a = false) (h0 : (s.answer 0).count = 1)
    (h1 : (s.answer 1).count = 2) :
    readReg a s =
      (some (imageOf (s.answer 1).b0 (s.answer 1).b1),
        (tRead s.params.stopAfterData (tWrite [a] false s)).setLast a) := by
  simp [readReg, dataPhase, h, callOk, h0, h1]

theorem readReg_slow_fail {a : RegAddr} (h : s.hits a = false) (h0 : (s.answer 0).count = 1)
    (h1 : (s.answer 1).count ≠ 2) :
    readReg a s = (none, (tRead s.params.stopAfterData (tWrite [a] false s)).invalidateLast) := by
  simp [readReg, dataPhase, h, callOk, h0, h1]

theorem writeReg_ok {a : RegAddr} {v : Word} (h : (s.answer 0).count = 3) :
    writeReg a v s = (true, (tWrite [a, hiByte v, loByte v] s.params.stopAfterData s).setLast a) := by
  simp [writeReg, callOk, h]

theorem writeReg_fail {a : RegAddr} {v : Word} (h : (s.answer 0).count ≠ 3) :
    writeReg a v s = (false, (tWrite [a, hiByte v, loByte v] s.params.stopAfterData s).invalidateLast) := by
  simp [writeReg, callOk, h]

/-! ### What an access leaves alone, whatever path it takes -/

theorem Untouched.refl : Untouched s s := ⟨rfl, rfl, rfl, rfl, rfl, rfl, rfl, rfl⟩

theorem Untouched.trans {s t u : State} (h : Untouched s t) (h' : Untouched t u) : Untouched s u :=
  ⟨h'.params.trans h.params, h'.devAddr.trans h.devAddr, h'.cmd.trans h.cmd, h'.inCfg.trans h.inCfg,
    h'.inMe.trans h.inMe, h'.inV.trans h.inV, h'.inReg.trans h.inReg, h'.hostStream.trans h.hostStream⟩

theorem SessionKept.refl : SessionKept s s := ⟨rfl, rfl, rfl, rfl, rfl⟩

/-- What a transport sequence that made the calls `evs` leaves: everything but the last-register pair and the account of
the transport. -/
structure Access (s t : State) (evs : List Event) : Prop where
  untouched : Untouched s t
  ready     : t.ready = s.ready
  status    : t.status = s.status
  outCfg    : t.outCfg = s.outCfg
  outMe     : t.outMe = s.outMe
  outV      : t.outV = s.outV
  outReg    : t.outReg = s.outReg
  trace     : t.trace = s.trace ++ evs
  answers   : t.answers = s.answers.drop evs.length
  fresh     : t.fresh = s.fresh + (evs.length - s.answers.length)

/-- One call, followed by an update of the last-register pair. -/
theorem access_of_call {s t : State} {e : Event} (hu : Untouched s t) (hr : t.ready = s.ready)
    (hs : t.status = s.status) (h1 : t.outCfg = s.outCfg) (h2 : t.outMe = s.outMe) (h3 : t.outV = s.outV)
    (h4 : t.outReg = s.outReg) (ht : t.trace = s.trace ++ [e]) (ha : t.answers = s.answers.tail)
    (hf : t.fresh = if s.answers.isEmpty then s.fresh + 1 else s.fresh) : Access s t [e] := by
  refine ⟨hu, hr, hs, h1, h2, h3, h4, ht, by simpa using ha, ?_⟩
  rw [hf]
  cases s.answers with
  | nil => simp
  | cons b bs => simp

theorem Access.trans {s t u : State} {es fs : List Event} (h : Access s t es) (h' : Access t u fs) :
    Access s u (es ++ fs) := by
  refine ⟨h.untouched.trans h'.untouched, h'.ready.trans h.ready, h'.status.trans h.status,
    h'.outCfg.trans h.outCfg, h'.outMe.trans h.outMe, h'.outV.trans h.outV, h'.outReg.trans h.outReg,
    by rw [h'.trace, h.trace, List.append_assoc], by rw [h'.answers, h.answers, List.drop_drop, List.length_append], ?_⟩
  rw [h'.fresh, h.fresh, h.answers, List.length_drop, List.length_append]
  omega

theorem access_write (bytes : List Byte) (stop : Bool) :
    Access s (tWrite bytes stop s) [.write s.devAddr bytes stop (s.answer 0).count] :=
  access_of_call ⟨rfl, rfl, rfl, rfl, rfl, rfl, rfl, rfl⟩ rfl rfl rfl rfl rfl rfl rfl rfl rfl

theorem access_read :
    Access s (tRead s.params.stopAfterData s) [dataEvent s (s.answer 0)] :=
  access_of_call ⟨rfl, rfl, rfl, rfl, rfl, rfl, rfl, rfl⟩ rfl rfl rfl rfl rfl rfl rfl rfl rfl

theorem Access.setLast {s t : State} {es : List Event} (h : Access s t es) (a : RegAddr) : Access s (t.setLast a) es :=
  ⟨⟨h.untouched.params, h.untouched.devAddr, h.untouched.cmd, h.untouched.inCfg, h.untouched.inMe, h.untouched.inV,
    h.untouched.inReg, h.untouched.hostStream⟩, h.ready, h.status, h.outCfg, h.outMe, h.outV, h.outReg, h.trace,
    h.answers, h.fresh⟩

theorem Access.invalidateLast {s t : State} {es : List Event} (h : Access s t es) : Access s t.invalidateLast es :=
  ⟨⟨h.untouched.params, h.untouched.devAddr, h.untouched.cmd, h.untouched.inCfg, h.untouched.inMe, h.untouched.inV,
    h.untouched.inReg, h.untouched.hostStream⟩, h.ready, h.status, h.outCfg, h.outMe, h.outV, h.outReg, h.trace,
    h.answers, h.fresh⟩

/-- Everything `ReadReg` can do (R60): the path it takes, the calls it makes, its result, and the last-register pair
afterwards. -/
inductive ReadPath (s : State) (a : RegAddr) : Option Word → State → List Event → Prop where
  | fastOk (t : State) (hit : s.hits a = true) (n : (s.answer 0).count = 2) (last : t.lastValid = true)
      (reg : t.lastReg = a) :
      ReadPath s a (some (imageOf (s.answer 0).b0 (s.answer 0).b1)) t [dataEvent s (s.answer 0)]
  | fastFail (t : State) (hit : s.hits a = true) (n : (s.answer 0).count ≠ 2) (last : t.lastValid = false)
      (reg : t.lastReg = s.lastReg) :
      ReadPath s a none t [dataEvent s (s.answer 0)]
  | addressFail (t : State) (miss : s.hits a = false) (n : (s.answer 0).count ≠ 1) (last : t.lastValid = false)
      (reg : t.lastReg = s.lastReg) :
      ReadPath s a none t [addrEvent s a (s.answer 0).count]
  | slowOk (t : State) (miss : s.hits a = false) (n : (s.answer 0).count = 1) (m : (s.answer 1).count = 2)
      (last : t.lastValid = true) (reg : t.lastReg = a) :
      ReadPath s a (some (imageOf (s.answer 1).b0 (s.answer 1).b1)) t
        [addrEvent s a (s.answer 0).count, dataEvent s (s.answer 1)]
  | slowFail (t : State) (miss : s.hits a = false) (n : (s.answer 0).count = 1) (m : (s.answer 1).count ≠ 2)
      (last : t.lastValid = false) (reg : t.lastReg = s.lastReg) :
      ReadPath s a none t [addrEvent s a (s.answer 0).count, dataEvent s (s.answer 1)]

theorem readReg_cases (a : RegAddr) :
    ∃ evs, ReadPath s a (readReg a s).1 (readReg a s).2 evs ∧ Access s (readReg a s).2 evs := by
  have slow : Access s (tRead s.params.stopAfterData (tWrite [a] false s))
      [addrEvent s a (s.answer 0).count, dataEvent s (s.answer 1)] := by
    have h := access_read (tWrite [a] false s)
    rw [answer_tWrite] at h
    exact (access_write s [a] false).trans h
  cases hh : s.hits a with
  | true =>
    by_cases h0 : (s.answer 0).count = 2
    · rw [readReg_fast_ok s hh h0]
      exact ⟨_, .fastOk _ hh h0 rfl rfl, (access_read s).setLast a⟩
    · rw [readReg_fast_fail s hh h0]
      exact ⟨_, .fastFail _ hh h0 rfl rfl, (access_read s).invalidateLast⟩
  | false =>
    by_cases h0 : (s.answer 0).count = 1
    · by_cases h1 : (s.answer 1).count = 2
      · rw [readReg_slow_ok s hh h0 h1]
        exact ⟨_, .slowOk _ hh h0 h1 rfl rfl, slow.setLast a⟩
      · rw [readReg_slow_fail s hh h0 h1]
        exact ⟨_, .slowFail _ hh h0 h1 rfl rfl, slow.invalidateLast⟩
    · rw [readReg_address_fail s hh h0]
      exact ⟨_, .addressFail _ hh h0 rfl rfl, (access_write s [a] false).invalidateLast⟩

/-- Everything `WriteReg` can do (R62). -/
inductive WritePath (s : State) (a : RegAddr) (v : Word) : Bool → State → List Event → Prop where
  | ok (t : State) (n : (s.answer 0).count = 3) (last : t.lastValid = true) (reg : t.lastReg = a) :
      WritePath s a v true t [frameEvent s a v (s.answer 0).count]
  | fail (t : State) (n : (s.answer 0).count ≠ 3) (last : t.lastValid = false) (reg : t.lastReg = s.lastReg) :
      WritePath s a v false t [frameEvent s a v (s.answer 0).count]

theorem writeReg_cases (a : RegAddr) (v : Word) :
    ∃ evs, WritePath s a v (writeReg a v s).1 (writeReg a v s).2 evs ∧ Access s (writeReg a v s).2 evs := by
  by_cases h : (s.answer 0).count = 3
  · rw [writeReg_ok s h]
    exact ⟨_, .ok _ h rfl rfl, (access_write s _ _).setLast a⟩
  · rw [writeReg_fail s h]
    exact ⟨_, .fail _ h rfl rfl, (access_write s _ _).invalidateLast⟩

end Sys2Proof.Machine
end

