-- ==== Sys2Proof/Laws/Exec.lean ====
section
/-! SUPPORT. Everything a command can do, said once: `exec_run` lists the ways a command can end, and each way names the
path its transport sequence took. The invariants of the machine are read off this list. -/

namespace Sys2Proof.Machine

/-! ### Operands -/

theorem checkCh_eq (nchan : Nat) (ch : Byte) : checkCh nchan ch = validChannel nchan ch := by
  have h0 : ch = 0 ↔ ch.toNat = 0 := ⟨fun h => h ▸ rfl, fun h => BitVec.eq_of_toNat_eq h⟩
  rw [Bool.eq_iff_iff]
  simp only [checkCh, validChannel, Bool.not_eq_true', Bool.or_eq_false_iff, beq_eq_false_iff_ne,
    decide_eq_false_iff_not, Bool.and_eq_true, decide_eq_true_eq, ne_eq, h0]
  omega

/-- A valid channel has its row. -/
theorem channelRow_valid {p : Params} {ch : Byte} (h : validChannel p.nchan ch = true) (k : Kind) (base : RegAddr) :
    channelRow p k base ch = some (k, chanAddr p.chPeriod base ch) := by
  rw [channelRow, if_pos h]

/-- Only a valid channel has a row, and the row is the channel's address. -/
theorem row_cases {p : Params} {k k' : Kind} {base a : RegAddr} {ch : Byte} (h : channelRow p k base ch = some (k', a)) :
    validChannel p.nchan ch = true ∧ k = k' ∧ a = chanAddr p.chPeriod base ch := by
  unfold channelRow at h
  split at h
  · simp only [Option.some.injEq, Prod.mk.injEq] at h
    exact ⟨‹_›, h.1, h.2.symm⟩
  · cases h

theorem kindOf_isSome (kind : Byte) : (kindOf kind).isSome = validKind kind := by
  revert kind; decide +kernel

/-! ### Values of `VOLT_T` -/

@[simp] theorem has_num (d : VoltDomain) (q : Rat) : d.has (.num q) = true := by cases d <;> rfl

@[simp] theorem has_anyVolt (d : VoltDomain) (n : Nat) : d.has (anyVolt d n) = true := by cases d <;> rfl

@[simp] theorem has_roundVolt (d : VoltDomain) (q : Rat) : d.has (roundVolt d q) = true := by cases d <;> rfl

/-- With the exact rationals a value of `VOLT_T` is a number. -/
theorem has_rational (v : Volt) : VoltDomain.rational.has v = true ↔ ∃ q, v = .num q := by
  cases v <;> simp [VoltDomain.has]

/-- `out_v` is left a value of `VOLT_T` if it held one. -/
def KeepsVolt (s t : State) : Prop := s.params.voltDomain.has s.outV = true → s.params.voltDomain.has t.outV = true

/-! ### How a command ends -/

/-- `t` is `s` with the command over: `status` is the code, and at most the result ports differ besides. -/
structure Ends (s t : State) (e : Status) : Prop where
  untouched : Untouched s t
  session   : SessionKept s t
  status    : t.status = e.code
  volt      : KeepsVolt s t

theorem ends_raise (s : State) (e : Status) : Ends s (raise e s) e :=
  ⟨⟨rfl, rfl, rfl, rfl, rfl, rfl, rfl, rfl⟩, ⟨rfl, rfl, rfl, rfl, rfl⟩, rfl, fun _ => has_anyVolt _ _⟩

theorem ends_finish {s t : State} (hu : Untouched s t) (hk : SessionKept s t) (hv : KeepsVolt s t) : Ends s (finish t) .ok :=
  ⟨⟨hu.params, hu.devAddr, hu.cmd, hu.inCfg, hu.inMe, hu.inV, hu.inReg, hu.hostStream⟩,
    ⟨hk.ready, hk.lastValid, hk.lastReg, hk.trace, hk.answers⟩, rfl, hv⟩

/-- The ways INIT can end (42_session_control.md R172, exits 1 to 5). -/
inductive InitRun (s t : State) : Prop where
  | readFail (s1 : State) (es : List Event) (read : ReadPath (s.setReady false) s.params.idReg none s1 es)
      (access : Access (s.setReady false) s1 es) (ends : Ends s1 t .communicationError)
  | vendor (id : Word) (s1 : State) (es : List Event) (read : ReadPath (s.setReady false) s.params.idReg (some id) s1 es)
      (access : Access (s.setReady false) s1 es) (mismatch : id ≠ s.params.expectedId)
      (ends : Ends s1 t .invalidVendor)
  | firstFail (s1 s2 : State) (es fs : List Event)
      (read : ReadPath (s.setReady false) s.params.idReg (some s.params.expectedId) s1 es)
      (access : Access (s.setReady false) s1 es)
      (first : WritePath s1 configReg s.params.initResetWord false s2 fs) (access1 : Access s1 s2 fs)
      (ends : Ends s2 t .communicationError)
  | secondFail (s1 s2 s3 : State) (es fs gs : List Event)
      (read : ReadPath (s.setReady false) s.params.idReg (some s.params.expectedId) s1 es)
      (access : Access (s.setReady false) s1 es)
      (first : WritePath s1 configReg s.params.initResetWord true s2 fs) (access1 : Access s1 s2 fs)
      (second : WritePath s2 configReg (initConfigWord s.inCfg) false s3 gs) (access2 : Access s2 s3 gs)
      (ends : Ends s3 t .communicationError)
  | ok (s1 s2 s3 : State) (es fs gs : List Event)
      (read : ReadPath (s.setReady false) s.params.idReg (some s.params.expectedId) s1 es)
      (access : Access (s.setReady false) s1 es)
      (first : WritePath s1 configReg s.params.initResetWord true s2 fs) (access1 : Access s1 s2 fs)
      (second : WritePath s2 configReg (initConfigWord s.inCfg) true s3 gs) (access2 : Access s2 s3 gs)
      (ends : Ends (s3.setReady true) t .ok)

/-- The ways a command can end: an invalid argument, no session, a codec operation, one read, one write, or INIT. -/
inductive Run (i : Instr) (s t : State) : Prop where
  | badArgument (wf : i.argValid s.params.nchan = false) (ends : Ends s t .invalidArgument)
  | noSession (wf : i.argValid s.params.nchan = true) (needs : needsSession i = true) (ready : s.ready = false)
      (ends : Ends s t .notInitialized)
  | codec (wf : i.argValid s.params.nchan = true) (isC : isCodec i = true) (ends : Ends s t .ok)
  | get (a : RegAddr) (r : Option Word) (s1 : State) (es : List Event) (target : readTarget s.params i = some a)
      (ready : s.ready = true) (read : ReadPath s a r s1 es) (access : Access s s1 es)
      (ends : Ends s1 t (if r.isSome then .ok else .communicationError))
  | set (a : RegAddr) (w : Word) (b : Bool) (s1 : State) (es : List Event) (target : writeTarget s.params i = some a)
      (ready : s.ready = true) (write : WritePath s a w b s1 es) (access : Access s s1 es)
      (ends : Ends s1 t (if b then .ok else .communicationError))
  | init (isInit : i = .init) (run : InitRun s t)

/-! ### The templates -/

theorem getReg_run {i : Instr} {s : State} {a : RegAddr} {deliver : Word → State → State}
    (target : readTarget s.params i = some a) (wf : i.argValid s.params.nchan = true) (needs : needsSession i = true)
    (hd : ∀ r t, Untouched t (deliver r t) ∧ SessionKept t (deliver r t) ∧ KeepsVolt t (deliver r t)) : Run i s (getReg a deliver s) := by
  unfold getReg
  cases hr : s.ready with
  | false => exact .noSession wf needs hr (ends_raise s _)
  | true =>
    obtain ⟨es, hp, ha⟩ := readReg_cases s a
    rcases hq : readReg a s with ⟨r, s1⟩
    rw [hq] at hp ha
    cases r with
    | none => exact .get a none s1 es target hr hp ha (ends_raise s1 _)
    | some r => exact .get a (some r) s1 es target hr hp ha (ends_finish (hd r s1).1 (hd r s1).2.1 (hd r s1).2.2)

theorem setReg_run {i : Instr} {s : State} {a : RegAddr} {w : Word} (target : writeTarget s.params i = some a)
    (wf : i.argValid s.params.nchan = true) (needs : needsSession i = true) : Run i s (setReg a w s) := by
  unfold setReg
  cases hr : s.ready with
  | false => exact .noSession wf needs hr (ends_raise s _)
  | true =>
    obtain ⟨es, hp, ha⟩ := writeReg_cases s a w
    rcases hq : writeReg a w s with ⟨b, s1⟩
    rw [hq] at hp ha
    cases b with
    | false => exact .set a w false s1 es target hr hp ha (ends_raise s1 _)
    | true => exact .set a w true s1 es target hr hp ha (ends_finish (.refl s1) (.refl s1) id)

theorem getV_run {i : Instr} {s : State} {k : Kind} {a : RegAddr} (target : readTarget s.params i = some a)
    (wf : i.argValid s.params.nchan = true) (needs : needsSession i = true) : Run i s (getV k a s) :=
  getReg_run target wf needs fun _ _ =>
    ⟨⟨rfl, rfl, rfl, rfl, rfl, rfl, rfl, rfl⟩, ⟨rfl, rfl, rfl, rfl, rfl⟩, fun _ => has_roundVolt _ _⟩

theorem setV_run {i : Instr} {s t : State} {k : Kind} {a : RegAddr} (target : writeTarget s.params i = some a)
    (wf : i.argValid s.params.nchan = true) (needs : needsSession i = true) (h : setV k a s = .next t) : Run i s t := by
  unfold setV at h
  cases hr : s.ready with
  | false =>
    simp only [hr, Bool.false_eq_true, if_false, Host.Outcome.next.injEq] at h
    exact h ▸ .noSession wf needs hr (ends_raise s _)
  | true =>
    simp only [hr, if_true] at h
    split at h
    · cases h
    · simp only [Host.Outcome.next.injEq] at h
      exact h ▸ setReg_run target wf needs

theorem getChannelV_run {i : Instr} {s t : State} {k : Kind} {base : RegAddr} {ch : Byte}
    (hw : i.argValid s.params.nchan = validChannel s.params.nchan ch) (needs : needsSession i = true)
    (target : readTarget s.params i = (channelRow s.params k base ch).map (·.2))
    (h : getChannelV k base ch s = .next t) : Run i s t := by
  unfold getChannelV at h
  rw [Host.Outcome.next.injEq] at h
  subst h
  rw [checkCh_eq]
  cases hv : validChannel s.params.nchan ch with
  | true => exact getV_run (target.trans (by rw [channelRow_valid hv]; rfl)) (hw.trans hv) needs
  | false => exact .badArgument (hw.trans hv) (ends_raise s _)

theorem setChannelV_run {i : Instr} {s t : State} {k : Kind} {base : RegAddr} {ch : Byte}
    (hw : i.argValid s.params.nchan = validChannel s.params.nchan ch) (needs : needsSession i = true)
    (target : writeTarget s.params i = (channelRow s.params k base ch).map (·.2))
    (h : setChannelV k base ch s = .next t) : Run i s t := by
  unfold setChannelV at h
  rw [checkCh_eq] at h
  cases hv : validChannel s.params.nchan ch with
  | true =>
    rw [hv, if_pos rfl] at h
    exact setV_run (target.trans (by rw [channelRow_valid hv]; rfl)) (hw.trans hv) needs h
  | false =>
    simp only [hv, Bool.false_eq_true, if_false, Host.Outcome.next.injEq] at h
    exact h ▸ .badArgument (hw.trans hv) (ends_raise s _)

theorem initSession_run (s : State) : InitRun s (initSession s) := by
  unfold initSession
  obtain ⟨es, hp, ha⟩ := readReg_cases (s.setReady false) s.params.idReg
  rcases hq : readReg s.params.idReg (s.setReady false) with ⟨r, s1⟩
  rw [hq] at hp ha
  have h1p : s1.params = s.params := ha.untouched.params
  have h1c : s1.inCfg = s.inCfg := ha.untouched.inCfg
  cases r with
  | none => exact .readFail s1 es hp ha (ends_raise s1 _)
  | some id =>
    by_cases hid : id = s.params.expectedId
    · subst hid
      simp only [if_true, initWrites]
      obtain ⟨fs, hp1, ha1⟩ := writeReg_cases s1 configReg s1.params.initResetWord
      rcases hq1 : writeReg configReg s1.params.initResetWord s1 with ⟨b, s2⟩
      rw [hq1] at hp1 ha1
      rw [h1p] at hp1
      cases b with
      | false => exact .firstFail s1 s2 es fs hp ha hp1 ha1 (ends_raise s2 _)
      | true =>
        simp only []
        obtain ⟨gs, hp2, ha2⟩ := writeReg_cases s2 configReg (initConfigWord s1.inCfg)
        rcases hq2 : writeReg configReg (initConfigWord s1.inCfg) s2 with ⟨b, s3⟩
        rw [hq2] at hp2 ha2
        rw [h1c] at hp2
        cases b with
        | false => exact .secondFail s1 s2 s3 es fs gs hp ha hp1 ha1 hp2 ha2 (ends_raise s3 _)
        | true => exact .ok s1 s2 s3 es fs gs hp ha hp1 ha1 hp2 ha2 (ends_finish (.refl _) (.refl _) id)
    · simp only [if_neg hid]
      exact .vendor id s1 es hp ha hid (ends_raise s1 _)

/-! ### Every command -/

/-- Whatever a command does, it is one of the ways `Run` lists. -/
theorem exec_run {i : Instr} {s t : State} (h : exec i s = .next t) : Run i s t := by
  cases i with
  | packConfig => cases h; exact .codec rfl rfl (ends_finish ⟨rfl, rfl, rfl, rfl, rfl, rfl, rfl, rfl⟩ ⟨rfl, rfl, rfl, rfl, rfl⟩ id)
  | unpackConfig => cases h; exact .codec rfl rfl (ends_finish ⟨rfl, rfl, rfl, rfl, rfl, rfl, rfl, rfl⟩ ⟨rfl, rfl, rfl, rfl, rfl⟩ id)
  | packMaskEnable => cases h; exact .codec rfl rfl (ends_finish ⟨rfl, rfl, rfl, rfl, rfl, rfl, rfl, rfl⟩ ⟨rfl, rfl, rfl, rfl, rfl⟩ id)
  | unpackMaskEnable => cases h; exact .codec rfl rfl (ends_finish ⟨rfl, rfl, rfl, rfl, rfl, rfl, rfl, rfl⟩ ⟨rfl, rfl, rfl, rfl, rfl⟩ id)
  | voltToReg kind =>
    have hk := kindOf_isSome kind
    simp only [exec, execVoltToReg] at h
    split at h
    · rename_i hn
      rw [hn] at hk
      cases h
      exact .badArgument hk.symm (ends_raise s _)
    · rename_i k hn
      rw [hn] at hk
      split at h
      · cases h
      · cases h
        exact .codec hk.symm (by simp [isCodec, Instr.op]) (ends_finish ⟨rfl, rfl, rfl, rfl, rfl, rfl, rfl, rfl⟩ ⟨rfl, rfl, rfl, rfl, rfl⟩ id)
  | regToVolt kind =>
    have hk := kindOf_isSome kind
    simp only [exec, execRegToVolt] at h
    split at h
    · rename_i hn
      rw [hn] at hk
      cases h
      exact .badArgument hk.symm (ends_raise s _)
    · rename_i k hn
      rw [hn] at hk
      cases h
      exact .codec hk.symm (by simp [isCodec, Instr.op]) (ends_finish ⟨rfl, rfl, rfl, rfl, rfl, rfl, rfl, rfl⟩ ⟨rfl, rfl, rfl, rfl, rfl⟩
        fun _ => has_roundVolt _ _)
  | init => cases h; exact .init rfl (initSession_run s)
  | getConfig =>
    cases h
    exact getReg_run rfl rfl rfl fun _ _ => ⟨⟨rfl, rfl, rfl, rfl, rfl, rfl, rfl, rfl⟩, ⟨rfl, rfl, rfl, rfl, rfl⟩, id⟩
  | setConfig => cases h; exact setReg_run rfl rfl rfl
  | getMaskEnable =>
    cases h
    exact getReg_run rfl rfl rfl fun _ _ => ⟨⟨rfl, rfl, rfl, rfl, rfl, rfl, rfl, rfl⟩, ⟨rfl, rfl, rfl, rfl, rfl⟩, id⟩
  | setMaskEnable => cases h; exact setReg_run rfl rfl rfl
  | shuntVoltageV ch => exact getChannelV_run rfl (by simp [needsSession, isCodec, Instr.op]) rfl h
  | busVoltageV ch => exact getChannelV_run rfl (by simp [needsSession, isCodec, Instr.op]) rfl h
  | getCritLimitV ch => exact getChannelV_run rfl (by simp [needsSession, isCodec, Instr.op]) rfl h
  | setCritLimitV ch => exact setChannelV_run rfl (by simp [needsSession, isCodec, Instr.op]) rfl h
  | getWarnLimitV ch => exact getChannelV_run rfl (by simp [needsSession, isCodec, Instr.op]) rfl h
  | setWarnLimitV ch => exact setChannelV_run rfl (by simp [needsSession, isCodec, Instr.op]) rfl h
  | shuntSumV => cases h; exact getV_run rfl rfl rfl
  | getSumLimitV => cases h; exact getV_run rfl rfl rfl
  | setSumLimitV => exact setV_run rfl rfl rfl h
  | getPvUpperV => cases h; exact getV_run rfl rfl rfl
  | setPvUpperV => exact setV_run rfl rfl rfl h
  | getPvLowerV => cases h; exact getV_run rfl rfl rfl
  | setPvLowerV => exact setV_run rfl rfl rfl h

end Sys2Proof.Machine
end

