-- ==== Sys2Proof/Laws/Commands.lean ====
section
/-! SUPPORT. Which shared template each command is: the getters and setters of a register of the map (20_memory.md R56) as
one `ReadReg` or `WriteReg`, and what each path of a template answers. -/

namespace Sys2Proof.Machine

/-- A voltage getter is `GetV` of its row. -/
theorem exec_voltGetter {i : Instr} {k : Kind} {a : RegAddr} {s : State} (h : voltGetter s.params i = some (k, a)) :
    exec i s = .next (getV k a s) := by
  have row : ∀ {k' base ch}, channelRow s.params k' base ch = some (k, a) →
      getChannelV k' base ch s = .next (getV k a s) := by
    intro k' base ch h
    obtain ⟨hv, rfl, rfl⟩ := row_cases h
    rw [getChannelV, checkCh_eq, if_pos hv]
  cases i <;> simp only [voltGetter, Option.some.injEq, Prod.mk.injEq, reduceCtorEq] at h
  case shuntVoltageV ch => exact row h
  case busVoltageV ch => exact row h
  case getCritLimitV ch => exact row h
  case getWarnLimitV ch => exact row h
  all_goals obtain ⟨rfl, rfl⟩ := h; rfl

/-- A voltage setter is `SetV` of its row. -/
theorem exec_voltSetter {i : Instr} {k : Kind} {a : RegAddr} {s : State} (h : voltSetter s.params i = some (k, a)) :
    exec i s = setV k a s := by
  have row : ∀ {k' base ch}, channelRow s.params k' base ch = some (k, a) → setChannelV k' base ch s = setV k a s := by
    intro k' base ch h
    obtain ⟨hv, rfl, rfl⟩ := row_cases h
    rw [setChannelV, checkCh_eq, if_pos hv]
  cases i <;> simp only [voltSetter, Option.some.injEq, Prod.mk.injEq, reduceCtorEq] at h
  case setCritLimitV ch => exact row h
  case setWarnLimitV ch => exact row h
  all_goals obtain ⟨rfl, rfl⟩ := h; rfl

/-- A getter is one `ReadReg` of its register, and delivers the image on a result port. -/
theorem exec_getter {p : Params} {i : Instr} {a : RegAddr} (h : readTarget p i = some a) :
    ∃ deliver : Word → State → State, (∀ s : State, s.params = p → exec i s = .next (getReg a deliver s)) ∧
      ∀ r t, Untouched t (deliver r t) ∧ SessionKept t (deliver r t) := by
  have volt : (voltGetter p i).map (·.2) = some a → ∃ deliver : Word → State → State,
      (∀ s : State, s.params = p → exec i s = .next (getReg a deliver s)) ∧
        ∀ r t, Untouched t (deliver r t) ∧ SessionKept t (deliver r t) := by
    intro hm
    obtain ⟨⟨k, b⟩, hk, rfl⟩ := Option.map_eq_some_iff.1 hm
    exact ⟨fun r t => { t with outV := decodeVolt t.params k r }, fun s hs => exec_voltGetter (by rw [hs]; exact hk),
      fun _ _ => ⟨⟨rfl, rfl, rfl, rfl, rfl, rfl, rfl, rfl⟩, ⟨rfl, rfl, rfl, rfl, rfl⟩⟩⟩
  cases i
  case getConfig =>
    cases h
    exact ⟨_, fun _ _ => rfl, fun _ _ => ⟨⟨rfl, rfl, rfl, rfl, rfl, rfl, rfl, rfl⟩, ⟨rfl, rfl, rfl, rfl, rfl⟩⟩⟩
  case getMaskEnable =>
    cases h
    exact ⟨_, fun _ _ => rfl, fun _ _ => ⟨⟨rfl, rfl, rfl, rfl, rfl, rfl, rfl, rfl⟩, ⟨rfl, rfl, rfl, rfl, rfl⟩⟩⟩
  all_goals exact volt h

/-- A setter whose operand has an image is one `WriteReg` of it to the setter's register. -/
theorem exec_setter {i : Instr} {a : RegAddr} {w : Word} {s : State} (h : writeTarget s.params i = some a)
    (hw : setterWord i s = some w) (hr : s.ready = true) : exec i s = .next (setReg a w s) := by
  have other : (voltSetter s.params i).map (·.2) = some a →
      (voltSetter s.params i).bind (fun row => encodeVolt s.params row.1 s.inV) = some w →
      exec i s = .next (setReg a w s) := by
    intro hm hb
    obtain ⟨⟨k, b⟩, hk, rfl⟩ := Option.map_eq_some_iff.1 hm
    rw [exec_voltSetter hk]
    rw [hk] at hb
    unfold setV
    rw [if_pos hr, show encodeVolt s.params k s.inV = some w from hb]
  cases i
  case setConfig => cases h; cases hw; rfl
  case setMaskEnable => cases h; cases hw; rfl
  all_goals exact other h hw

/-! ### What a template answers -/

theorem getReg_ready {s s1 : State} {a : RegAddr} {deliver : Word → State → State} {r : Word} (hr : s.ready = true)
    (h : readReg a s = (some r, s1)) : getReg a deliver s = finish (deliver r s1) := by
  unfold getReg
  rw [if_pos hr, h]

theorem getReg_failed {s s1 : State} {a : RegAddr} {deliver : Word → State → State} (hr : s.ready = true)
    (h : readReg a s = (none, s1)) : getReg a deliver s = raise .communicationError s1 := by
  unfold getReg
  rw [if_pos hr, h]

theorem setReg_ready {s s1 : State} {a : RegAddr} {w : Word} (hr : s.ready = true)
    (h : writeReg a w s = (true, s1)) : setReg a w s = finish s1 := by
  unfold setReg
  rw [if_pos hr, h]

theorem setReg_failed {s s1 : State} {a : RegAddr} {w : Word} (hr : s.ready = true)
    (h : writeReg a w s = (false, s1)) : setReg a w s = raise .communicationError s1 := by
  unfold setReg
  rw [if_pos hr, h]

/-- The calls of a command are those of its transport sequence. -/
theorem newCalls_of_ends {s s1 t : State} {es : List Event} {e : Status} (ha : Access s s1 es) (he : Ends s1 t e) :
    newCalls s t = es := by
  unfold newCalls
  rw [he.session.trace, ha.trace, List.drop_left]

theorem newCalls_nil {s t : State} (h : SessionKept s t) : newCalls s t = [] := by
  unfold newCalls
  rw [h.trace, List.drop_length]

end Sys2Proof.Machine
end

