-- ==== Sys2Proof/Laws/PerInstr.lean ====
section
/-! SUPPORT. Per command, as syntax: the word it is encoded as lies in its own row of the opcode map (30_encoding.md R91,
R92). -/

namespace Sys2Proof.Laws

/-- The word of the command has the command's `op` in its high byte and its `arg` in its low byte, and the `arg` of a format N command is 0 (log entry 11). -/
def OpcodeRow.Statement (i : Instr) : Prop :=
  opField (encode i) = i.op ∧ argField (encode i) = i.arg ∧ (Machine.formatN i = true → i.arg = 0)

theorem OpcodeRow.fields (i : Instr) : opField (encode i) = i.op ∧ argField (encode i) = i.arg :=
  ⟨opField_join i.op i.arg, argField_join i.op i.arg⟩

theorem OpcodeRow.packConfig : OpcodeRow.Statement .packConfig :=
  ⟨(OpcodeRow.fields _).1, (OpcodeRow.fields _).2, fun _ => rfl⟩

theorem OpcodeRow.unpackConfig : OpcodeRow.Statement .unpackConfig :=
  ⟨(OpcodeRow.fields _).1, (OpcodeRow.fields _).2, fun _ => rfl⟩

theorem OpcodeRow.packMaskEnable : OpcodeRow.Statement .packMaskEnable :=
  ⟨(OpcodeRow.fields _).1, (OpcodeRow.fields _).2, fun _ => rfl⟩

theorem OpcodeRow.unpackMaskEnable : OpcodeRow.Statement .unpackMaskEnable :=
  ⟨(OpcodeRow.fields _).1, (OpcodeRow.fields _).2, fun _ => rfl⟩

theorem OpcodeRow.voltToReg (kind : Byte) : OpcodeRow.Statement (.voltToReg kind) :=
  ⟨(OpcodeRow.fields _).1, (OpcodeRow.fields _).2, fun h => by simp [Machine.formatN] at h⟩

theorem OpcodeRow.regToVolt (kind : Byte) : OpcodeRow.Statement (.regToVolt kind) :=
  ⟨(OpcodeRow.fields _).1, (OpcodeRow.fields _).2, fun h => by simp [Machine.formatN] at h⟩

theorem OpcodeRow.init : OpcodeRow.Statement .init :=
  ⟨(OpcodeRow.fields _).1, (OpcodeRow.fields _).2, fun _ => rfl⟩

theorem OpcodeRow.getConfig : OpcodeRow.Statement .getConfig :=
  ⟨(OpcodeRow.fields _).1, (OpcodeRow.fields _).2, fun _ => rfl⟩

theorem OpcodeRow.setConfig : OpcodeRow.Statement .setConfig :=
  ⟨(OpcodeRow.fields _).1, (OpcodeRow.fields _).2, fun _ => rfl⟩

theorem OpcodeRow.getMaskEnable : OpcodeRow.Statement .getMaskEnable :=
  ⟨(OpcodeRow.fields _).1, (OpcodeRow.fields _).2, fun _ => rfl⟩

theorem OpcodeRow.setMaskEnable : OpcodeRow.Statement .setMaskEnable :=
  ⟨(OpcodeRow.fields _).1, (OpcodeRow.fields _).2, fun _ => rfl⟩

theorem OpcodeRow.shuntVoltageV (ch : Byte) : OpcodeRow.Statement (.shuntVoltageV ch) :=
  ⟨(OpcodeRow.fields _).1, (OpcodeRow.fields _).2, fun h => by simp [Machine.formatN, Machine.hasChannel] at h⟩

theorem OpcodeRow.busVoltageV (ch : Byte) : OpcodeRow.Statement (.busVoltageV ch) :=
  ⟨(OpcodeRow.fields _).1, (OpcodeRow.fields _).2, fun h => by simp [Machine.formatN, Machine.hasChannel] at h⟩

theorem OpcodeRow.getCritLimitV (ch : Byte) : OpcodeRow.Statement (.getCritLimitV ch) :=
  ⟨(OpcodeRow.fields _).1, (OpcodeRow.fields _).2, fun h => by simp [Machine.formatN, Machine.hasChannel] at h⟩

theorem OpcodeRow.setCritLimitV (ch : Byte) : OpcodeRow.Statement (.setCritLimitV ch) :=
  ⟨(OpcodeRow.fields _).1, (OpcodeRow.fields _).2, fun h => by simp [Machine.formatN, Machine.hasChannel] at h⟩

theorem OpcodeRow.getWarnLimitV (ch : Byte) : OpcodeRow.Statement (.getWarnLimitV ch) :=
  ⟨(OpcodeRow.fields _).1, (OpcodeRow.fields _).2, fun h => by simp [Machine.formatN, Machine.hasChannel] at h⟩

theorem OpcodeRow.setWarnLimitV (ch : Byte) : OpcodeRow.Statement (.setWarnLimitV ch) :=
  ⟨(OpcodeRow.fields _).1, (OpcodeRow.fields _).2, fun h => by simp [Machine.formatN, Machine.hasChannel] at h⟩

theorem OpcodeRow.shuntSumV : OpcodeRow.Statement .shuntSumV :=
  ⟨(OpcodeRow.fields _).1, (OpcodeRow.fields _).2, fun _ => rfl⟩

theorem OpcodeRow.getSumLimitV : OpcodeRow.Statement .getSumLimitV :=
  ⟨(OpcodeRow.fields _).1, (OpcodeRow.fields _).2, fun _ => rfl⟩

theorem OpcodeRow.setSumLimitV : OpcodeRow.Statement .setSumLimitV :=
  ⟨(OpcodeRow.fields _).1, (OpcodeRow.fields _).2, fun _ => rfl⟩

theorem OpcodeRow.getPvUpperV : OpcodeRow.Statement .getPvUpperV :=
  ⟨(OpcodeRow.fields _).1, (OpcodeRow.fields _).2, fun _ => rfl⟩

theorem OpcodeRow.setPvUpperV : OpcodeRow.Statement .setPvUpperV :=
  ⟨(OpcodeRow.fields _).1, (OpcodeRow.fields _).2, fun _ => rfl⟩

theorem OpcodeRow.getPvLowerV : OpcodeRow.Statement .getPvLowerV :=
  ⟨(OpcodeRow.fields _).1, (OpcodeRow.fields _).2, fun _ => rfl⟩

theorem OpcodeRow.setPvLowerV : OpcodeRow.Statement .setPvLowerV :=
  ⟨(OpcodeRow.fields _).1, (OpcodeRow.fields _).2, fun _ => rfl⟩

end Sys2Proof.Laws
end

