-- ==== Sys2Proof/Laws/Scaler.lean ====
section
/-! SUPPORT. The scaler in plain arithmetic (41_codec_voltage.md): truncation, the range of the raw value, and what image an
encoded value is and what raw value an image holds, each as a number. -/

namespace Sys2Proof.Machine

/-! ### Admitted triples -/

/-- R8, as propositions. -/
theorem Scale.wf_iff (t : Scale) :
    t.wf = true ↔ 0 < t.fsv ∧ 1 ≤ t.fsc ∧ t.shift ≤ 14 ∧ t.fsc * 2 ^ t.shift ≤ 0x7FFF := by
  simp [Scale.wf, and_assoc]

/-! ### Truncation -/

theorem trunc_of_nonneg {q : Rat} (h : 0 ≤ q) : trunc q = ⌊q⌋ := by
  unfold trunc
  rw [Int.tdiv_eq_ediv_of_nonneg (Rat.num_nonneg.mpr h), Rat.floor_def']

theorem trunc_neg (q : Rat) : trunc (-q) = -trunc q := by
  unfold trunc
  rw [Rat.neg_num, Rat.neg_den, Int.neg_tdiv]

/-- R142: toward zero. -/
theorem trunc_of_neg {q : Rat} (h : q < 0) : trunc q = ⌈q⌉ := by
  have := trunc_of_nonneg (q := -q) (by linarith)
  rw [trunc_neg, Int.floor_neg] at this
  omega

theorem trunc_nonneg {q : Rat} (h : 0 ≤ q) : 0 ≤ trunc q := by
  rw [trunc_of_nonneg h]
  exact Int.floor_nonneg.mpr h

theorem trunc_nonpos {q : Rat} (h : q ≤ 0) : trunc q ≤ 0 := by
  have := trunc_nonneg (q := -q) (by linarith)
  rw [trunc_neg] at this
  omega

theorem trunc_le {q : Rat} (h : 0 ≤ q) : (trunc q : Rat) ≤ q := by
  rw [trunc_of_nonneg h]
  exact Int.floor_le q

theorem lt_trunc_add_one {q : Rat} (h : 0 ≤ q) : q < trunc q + 1 := by
  rw [trunc_of_nonneg h]
  exact Int.lt_floor_add_one q

theorem trunc_intCast (k : Int) : trunc (k : Rat) = k := by
  rcases le_or_gt 0 k with h | h
  · rw [trunc_of_nonneg (by exact_mod_cast h), Int.floor_intCast]
  · rw [trunc_of_neg (by exact_mod_cast h), Int.ceil_intCast]

theorem trunc_mono {p q : Rat} (h : p ≤ q) : trunc p ≤ trunc q := by
  rcases le_or_gt 0 p with hp | hp
  · rw [trunc_of_nonneg hp, trunc_of_nonneg (hp.trans h)]
    exact Int.floor_mono h
  · rcases le_or_gt 0 q with hq | hq
    · exact (trunc_nonpos hp.le).trans (trunc_nonneg hq)
    · rw [trunc_of_neg hp, trunc_of_neg hq]
      exact Int.ceil_mono h

/-- The three facts that fix the truncated quotient (R142). -/
theorem trunc_spec (q : Rat) : |(trunc q : Rat)| ≤ |q| ∧ |q| < |(trunc q : Rat)| + 1 ∧ 0 ≤ (trunc q : Rat) * q := by
  rcases le_or_gt 0 q with h | h
  · have h0 : (0 : Rat) ≤ trunc q := by exact_mod_cast trunc_nonneg h
    rw [abs_of_nonneg h, abs_of_nonneg h0]
    exact ⟨trunc_le h, lt_trunc_add_one h, mul_nonneg h0 h⟩
  · have hn : 0 ≤ -q := by linarith
    have h0 : (0 : Rat) ≤ trunc (-q) := by exact_mod_cast trunc_nonneg hn
    have e : (trunc q : Rat) = -trunc (-q) := by rw [trunc_neg]; push_cast; ring
    have h1 := trunc_le hn
    have h2 := lt_trunc_add_one hn
    rw [e, abs_of_neg h, abs_neg, abs_of_nonneg h0]
    refine ⟨h1, h2, ?_⟩
    nlinarith

/-! ### The raw value -/

theorem clamp_eq {v f : Rat} (h : 0 < f) : clamp v (-f) f = max (-f) (min v f) := by
  unfold clamp
  split
  · rw [max_eq_left]
    exact (min_le_left _ _).trans (le_of_lt ‹_›)
  · split
    · rw [min_eq_right (le_of_lt ‹_›), max_eq_right]
      linarith
    · rw [min_eq_left (by linarith), max_eq_right (by linarith)]

theorem clamp_neg {v f : Rat} (h : 0 < f) : clamp (-v) (-f) f = -clamp v (-f) f := by
  unfold clamp
  split_ifs <;> linarith

/-- Step 1 leaves a voltage in range (R141). -/
theorem clamp_bounds {v f : Rat} (h : 0 < f) : -f ≤ clamp v (-f) f ∧ clamp v (-f) f ≤ f := by
  rw [clamp_eq h]
  exact ⟨le_max_left _ _, max_le (by linarith) (min_le_right _ _)⟩

theorem clamp_mono {v w f : Rat} (h : 0 < f) (hv : v ≤ w) : clamp v (-f) f ≤ clamp w (-f) f := by
  rw [clamp_eq h, clamp_eq h]
  exact max_le_max le_rfl (min_le_min hv le_rfl)

/-- `-FSC <= raw <= FSC` (R142). -/
theorem rawOf_bounds {t : Scale} (h : t.wf = true) (v : Rat) : -(t.fsc : Int) ≤ rawOf t v ∧ rawOf t v ≤ t.fsc := by
  obtain ⟨hf, hc, -, -⟩ := (Scale.wf_iff t).1 h
  obtain ⟨h1, h2⟩ := clamp_bounds (v := v) hf
  have hc' : (0 : Rat) ≤ t.fsc := by positivity
  have hi : clamp v (-t.fsv) t.fsv * t.fsc / t.fsv ≤ ((t.fsc : Int) : Rat) := by
    rw [div_le_iff₀ hf]
    push_cast
    nlinarith
  have lo : ((-(t.fsc : Int) : Int) : Rat) ≤ clamp v (-t.fsv) t.fsv * t.fsc / t.fsv := by
    rw [le_div_iff₀ hf]
    push_cast
    nlinarith
  have hi' := trunc_mono hi
  have lo' := trunc_mono lo
  rw [trunc_intCast] at hi' lo'
  exact ⟨lo', hi'⟩

theorem rawOf_neg {t : Scale} (h : t.wf = true) (v : Rat) : rawOf t (-v) = -rawOf t v := by
  unfold rawOf
  rw [clamp_neg ((Scale.wf_iff t).1 h).1, neg_mul, neg_div, trunc_neg]

theorem rawOf_mono {t : Scale} (h : t.wf = true) {v w : Rat} (hv : v ≤ w) : rawOf t v ≤ rawOf t w := by
  have hf := ((Scale.wf_iff t).1 h).1
  unfold rawOf
  apply trunc_mono
  have := clamp_mono hf hv
  gcongr

/-! ### Images as numbers -/

theorem getLsbD_fieldMask (s j : Nat) : (fieldMask s).getLsbD j = decide (s ≤ j ∧ j < 16) := by
  have ones : ∀ n : Nat, (0xFFFF#16).getLsbD n = decide (n < 16) := by
    intro n
    have h : (0xFFFF#16) = BitVec.allOnes 16 := by decide
    rw [h, BitVec.getLsbD_allOnes]
  unfold fieldMask
  rw [BitVec.getLsbD_shiftLeft, BitVec.ofNat_eq_ofNat, ones]
  by_cases h : s ≤ j
  · by_cases h16 : j < 16
    · simp [h, h16, Nat.not_lt.mpr h, show j - s < 16 by omega]
    · simp [h16]
  · simp [h, Nat.lt_of_not_le h]

/-- Masking clears the padding bits (R144). -/
theorem toNat_mask (w : Word) (s : Nat) : (w &&& fieldMask s).toNat = w.toNat / 2 ^ s * 2 ^ s := by
  apply Nat.eq_of_testBit_eq
  intro j
  have hl : (w &&& fieldMask s).toNat.testBit j = (w.getLsbD j && decide (s ≤ j ∧ j < 16)) := by
    rw [← getLsbD_fieldMask, ← BitVec.getLsbD_and]
    rfl
  rw [hl, ← Nat.shiftRight_eq_div_pow, ← Nat.shiftLeft_eq, Nat.testBit_shiftLeft, Nat.testBit_shiftRight]
  by_cases h : s ≤ j
  · by_cases h16 : j < 16
    · simp [h, h16, show s + (j - s) = j by omega, BitVec.getLsbD]
    · have hb : w.toNat.testBit j = false := by
        have := BitVec.getLsbD_of_ge w j (by omega)
        simpa [BitVec.getLsbD] using this
      simp [h16, h, show s + (j - s) = j by omega, hb]
  · simp [h]

theorem toNat_low15 (w : Word) : (w &&& 0x7FFF).toNat = w.toNat % 0x8000 := by
  have h : (w &&& 0x7FFF).toNat = w.toNat &&& 0x7FFF := BitVec.toNat_and w 0x7FFF
  rw [h]
  exact Nat.and_two_pow_sub_one_eq_mod w.toNat 15

theorem getLsbD15_iff (w : Word) : w.getLsbD 15 = true ↔ 0x8000 ≤ w.toNat := by
  have := w.isLt
  simp only [BitVec.getLsbD, Nat.testBit_eq_decide_div_mod_eq, decide_eq_true_eq]
  omega

/-- `EncSign` as a number (R145). -/
theorem toNat_encSign {m : SignMode} {sh : Int} (h : -0x7FFF ≤ sh) (h' : sh ≤ 0x7FFF) :
    ((encSign m sh).toNat : Int) =
      if 0 ≤ sh then sh else
        match m with
        | .signMag => 0x8000 - sh
        | .twos => 0x10000 + sh := by
  have pos : 0 ≤ sh → ((BitVec.ofInt 16 sh).toNat : Int) = sh := by
    intro hs
    rw [BitVec.toNat_ofInt]
    omega
  cases m with
  | signMag =>
    unfold encSign
    simp only []
    by_cases hs : 0 ≤ sh
    · rw [if_neg (by omega), if_pos hs, pos hs]
    · rw [if_pos (by omega), if_neg hs]
      have hn : sh.natAbs < 2 ^ 15 := by omega
      have e : (0x8000#16 ||| BitVec.ofNat 16 sh.natAbs).toNat = 0x8000 + sh.natAbs := by
        have h1 : (0x8000#16 ||| BitVec.ofNat 16 sh.natAbs).toNat = 1 <<< 15 ||| sh.natAbs := by
          rw [BitVec.toNat_or, BitVec.toNat_ofNat, BitVec.toNat_ofNat, Nat.mod_eq_of_lt (by omega : sh.natAbs < 2 ^ 16)]
          rfl
        rw [h1, ← Nat.shiftLeft_add_eq_or_of_lt hn]
        rfl
      rw [BitVec.ofNat_eq_ofNat, e]
      omega
  | twos =>
    unfold encSign
    simp only []
    by_cases hs : 0 ≤ sh
    · rw [if_neg (by omega), if_pos hs, pos hs]
    · rw [if_pos (by omega), if_neg hs, BitVec.toNat_ofInt]
      omega

/-- The image of a voltage, as a number (R147): the mask of step 5 changes nothing (R146). -/
theorem toNat_v2r {m : SignMode} {t : Scale} (h : t.wf = true) (v : Rat) :
    ((v2r m t v).toNat : Int) =
      if 0 ≤ rawOf t v then rawOf t v * 2 ^ t.shift else
        match m with
        | .signMag => 0x8000 - rawOf t v * 2 ^ t.shift
        | .twos => 0x10000 + rawOf t v * 2 ^ t.shift := by
  obtain ⟨-, -, hs, hb⟩ := (Scale.wf_iff t).1 h
  obtain ⟨lo, hi⟩ := rawOf_bounds h v
  unfold v2r
  generalize rawOf t v = raw at lo hi ⊢
  have hp : (0 : Int) < 2 ^ t.shift := by positivity
  have hb' : (t.fsc : Int) * 2 ^ t.shift ≤ 0x7FFF := by exact_mod_cast hb
  have b1 : -0x7FFF ≤ raw * 2 ^ t.shift := by nlinarith
  have b2 : raw * 2 ^ t.shift ≤ 0x7FFF := by nlinarith
  have sign : 0 ≤ raw * 2 ^ t.shift ↔ 0 ≤ raw := by
    constructor
    · intro h0
      by_contra hneg
      nlinarith
    · intro h0
      positivity
  have enc := toNat_encSign (m := m) b1 b2
  have dvd : (2 ^ t.shift : Int) ∣ ((encSign m (raw * 2 ^ t.shift)).toNat : Int) := by
    have e16 : (2 ^ t.shift : Int) ∣ 0x8000 := by
      have : (0x8000 : Int) = 2 ^ t.shift * 2 ^ (15 - t.shift) := by
        rw [← pow_add, show t.shift + (15 - t.shift) = 15 by omega]
        norm_num
      exact ⟨_, this⟩
    have e17 : (2 ^ t.shift : Int) ∣ 0x10000 := e16.trans ⟨2, by norm_num⟩
    rw [enc]
    split
    · exact dvd_mul_left _ _
    · cases m with
      | signMag => exact dvd_sub e16 (dvd_mul_left _ _)
      | twos => exact dvd_add e17 (dvd_mul_left _ _)
  have masked : (encSign m (raw * 2 ^ t.shift) &&& fieldMask t.shift).toNat =
      (encSign m (raw * 2 ^ t.shift)).toNat := by
    rw [toNat_mask]
    exact Nat.div_mul_cancel (by exact_mod_cast dvd)
  rw [masked, enc]
  simp only [sign]

/-- The raw value an image holds (R151): the magnitude or the two's-complement value, shifted right. -/
def imageRaw (m : SignMode) (s : Nat) (r : Word) : Int := asr (decSign m (r &&& fieldMask s)) s

theorem imageRaw_signMag {s : Nat} (h : s ≤ 14) (r : Word) :
    imageRaw .signMag s r =
      if 0x8000 ≤ r.toNat then -(((r.toNat - 0x8000) / 2 ^ s : Nat) : Int) else ((r.toNat / 2 ^ s : Nat) : Int) := by
  have hp : 0 < 2 ^ s := by positivity
  have e15 : 0x8000 = 2 ^ s * 2 ^ (15 - s) := by
    rw [← pow_add, show s + (15 - s) = 15 by omega]
    norm_num
  have big : 0x8000 ≤ (r &&& fieldMask s).toNat ↔ 0x8000 ≤ r.toNat := by
    rw [toNat_mask]
    constructor
    · intro hb
      exact hb.trans (Nat.div_mul_le_self _ _)
    · intro hb
      rw [e15, Nat.mul_comm (2 ^ s)] at hb ⊢
      exact Nat.mul_le_mul_right _ ((Nat.le_div_iff_mul_le hp).2 hb)
  have cancel : ∀ n : Nat, asr ((n * 2 ^ s : Nat) : Int) s = n := by
    intro n
    unfold asr
    push_cast
    exact Int.mul_ediv_cancel _ (by positivity)
  unfold imageRaw decSign
  simp only [getLsbD15_iff, big]
  split
  · rename_i hb
    have hlt := r.isLt
    have hm := big.2 hb
    have mlt := (r &&& fieldMask s).isLt
    have e : ((r &&& fieldMask s) &&& 0x7FFF).toNat = (r.toNat - 0x8000) / 2 ^ s * 2 ^ s := by
      rw [toNat_low15]
      have hsub : (r &&& fieldMask s).toNat % 0x8000 = (r &&& fieldMask s).toNat - 0x8000 := by omega
      rw [hsub, toNat_mask]
      have : (r.toNat - 0x8000) / 2 ^ s = r.toNat / 2 ^ s - 2 ^ (15 - s) := by
        rw [e15, Nat.sub_mul_div]
      rw [this, Nat.sub_mul, ← Nat.mul_comm (2 ^ s) (2 ^ (15 - s)), ← e15]
    rw [e]
    unfold asr
    push_cast
    rw [Int.neg_ediv_of_dvd (dvd_mul_left _ _), Int.mul_ediv_cancel _ (by positivity)]
  · rw [toNat_mask, cancel]

theorem imageRaw_twos {s : Nat} (h : s ≤ 14) (r : Word) :
    imageRaw .twos s r = (if 0x8000 ≤ r.toNat then (r.toNat : Int) - 0x10000 else r.toNat) / 2 ^ s := by
  have hp : 0 < 2 ^ s := by positivity
  have e15 : 0x8000 = 2 ^ s * 2 ^ (15 - s) := by
    rw [← pow_add, show s + (15 - s) = 15 by omega]
    norm_num
  have e16 : (0x10000 : Int) = 2 ^ s * 2 ^ (16 - s) := by
    rw [← pow_add, show s + (16 - s) = 16 by omega]
    norm_num
  have big : 0x8000 ≤ (r &&& fieldMask s).toNat ↔ 0x8000 ≤ r.toNat := by
    rw [toNat_mask]
    constructor
    · intro hb
      exact hb.trans (Nat.div_mul_le_self _ _)
    · intro hb
      rw [e15, Nat.mul_comm (2 ^ s)] at hb ⊢
      exact Nat.mul_le_mul_right _ ((Nat.le_div_iff_mul_le hp).2 hb)
  have val : (r &&& fieldMask s).toInt =
      if 0x8000 ≤ r.toNat then ((r &&& fieldMask s).toNat : Int) - 0x10000 else ((r &&& fieldMask s).toNat : Int) := by
    rw [BitVec.toInt_eq_toNat_cond]
    by_cases hb : 0x8000 ≤ r.toNat
    · have := big.2 hb
      rw [if_neg (by omega), if_pos hb]
      norm_num
    · have := mt big.1 hb
      rw [if_pos (by omega), if_neg hb]
  unfold imageRaw decSign asr
  simp only [val, toNat_mask]
  have hp' : (2 ^ s : Int) ≠ 0 := by positivity
  split
  · rw [e16]
    push_cast
    have a : ((r.toNat : Int) / 2 ^ s * 2 ^ s - 2 ^ s * 2 ^ (16 - s)) / 2 ^ s = (r.toNat : Int) / 2 ^ s - 2 ^ (16 - s) := by
      rw [show ((r.toNat : Int) / 2 ^ s * 2 ^ s - 2 ^ s * 2 ^ (16 - s)) = ((r.toNat : Int) / 2 ^ s - 2 ^ (16 - s)) * 2 ^ s by ring]
      exact Int.mul_ediv_cancel _ hp'
    rw [a, Int.sub_mul_ediv_left _ _ hp']
  · push_cast
    exact Int.mul_ediv_cancel _ hp'

theorem r2v_eq (m : SignMode) (t : Scale) (r : Word) : r2v m t r = t.fsv * imageRaw m t.shift r / t.fsc := rfl

/-- Decoding the image of a voltage gives back its raw value: nothing is lost after the truncation. -/
theorem imageRaw_v2r {m : SignMode} {t : Scale} (h : t.wf = true) (v : Rat) :
    imageRaw m t.shift (v2r m t v) = rawOf t v := by
  obtain ⟨-, -, hs, hb⟩ := (Scale.wf_iff t).1 h
  obtain ⟨lo, hi⟩ := rawOf_bounds h v
  have e := toNat_v2r (m := m) h v
  have hp : (0 : Int) < 2 ^ t.shift := by positivity
  have hp' : (2 ^ t.shift : Int) ≠ 0 := hp.ne'
  have hb' : (t.fsc : Int) * 2 ^ t.shift ≤ 0x7FFF := by exact_mod_cast hb
  have b1 : -0x7FFF ≤ rawOf t v * 2 ^ t.shift := by nlinarith
  have b2 : rawOf t v * 2 ^ t.shift ≤ 0x7FFF := by nlinarith
  generalize rawOf t v = raw at *
  by_cases h0 : 0 ≤ raw
  · rw [if_pos h0] at e
    have small : ¬0x8000 ≤ (v2r m t v).toNat := by omega
    cases m with
    | signMag =>
      rw [imageRaw_signMag hs, if_neg small]
      push_cast
      rw [e, Int.mul_ediv_cancel _ hp']
    | twos => rw [imageRaw_twos hs, if_neg small, e, Int.mul_ediv_cancel _ hp']
  · rw [if_neg h0] at e
    have neg : raw * 2 ^ t.shift < 0 := by nlinarith
    cases m with
    | signMag =>
      simp only [] at e
      have large : 0x8000 ≤ (v2r .signMag t v).toNat := by omega
      rw [imageRaw_signMag hs, if_pos large]
      push_cast [large]
      rw [e, show ((0x8000 : Int) - raw * 2 ^ t.shift - 0x8000) = -raw * 2 ^ t.shift by ring,
        Int.mul_ediv_cancel _ hp', neg_neg]
    | twos =>
      simp only [] at e
      have large : 0x8000 ≤ (v2r .twos t v).toNat := by omega
      rw [imageRaw_twos hs, if_pos large, e, show ((0x10000 : Int) + raw * 2 ^ t.shift - 0x10000) = raw * 2 ^ t.shift by ring,
        Int.mul_ediv_cancel _ hp']

end Sys2Proof.Machine
end

