-- ==== Sys2Proof/Laws/Traces.lean ====
section
/-! SUPPORT. What a transport sequence shows: which of its calls failed, what it leaves in the last-register pair, which
register it wrote, and where it leaves the pointer of a device that retains it (20_memory.md R53). -/

namespace Sys2Proof.Machine

@[simp] theorem addrEvent_ok (s : State) (a : RegAddr) (n : Int) : (addrEvent s a n).ok = (n == 1) := rfl

@[simp] theorem dataEvent_ok (s : State) (ans : Answer) : (dataEvent s ans).ok = (ans.count == 2) := rfl

@[simp] theorem frameEvent_ok (s : State) (a : RegAddr) (v : Word) (n : Int) : (frameEvent s a v n).ok = (n == 3) := rfl

@[simp] theorem pointerAfter_addr (p : Option RegAddr) (s : State) (a : RegAddr) (n : Int) :
    pointerAfter p (addrEvent s a n) = if n == 1 then some a else none := rfl

@[simp] theorem pointerAfter_frame (p : Option RegAddr) (s : State) (a : RegAddr) (v : Word) (n : Int) :
    pointerAfter p (frameEvent s a v n) = if n == 3 then some a else none := rfl

@[simp] theorem pointerAfter_data (p : Option RegAddr) (s : State) (ans : Answer) :
    pointerAfter p (dataEvent s ans) = if ans.count == 2 then p else none := rfl

theorem devicePointer_append (xs ys : List Event) :
    devicePointer (xs ++ ys) = ys.foldl pointerAfter (devicePointer xs) := List.foldl_append

theorem readsAddressed_append (p : Option RegAddr) (xs ys : List Event) :
    readsAddressed p (xs ++ ys) = (readsAddressed p xs && readsAddressed (xs.foldl pointerAfter p) ys) := by
  induction xs generalizing p with
  | nil => simp [readsAddressed]
  | cons e xs ih => cases e <;> simp [readsAddressed, ih, Bool.and_assoc]

theorem writtenRegs_append_of_nil {xs : List Event} (h : writtenRegs xs = []) (ys : List Event) :
    writtenRegs (xs ++ ys) = writtenRegs ys := by
  fun_induction writtenRegs xs <;> simp_all [writtenRegs]

/-- What the calls of one `ReadReg` show (R60), `p` being the retained pointer before them. -/
structure ReadFacts (s : State) (a : RegAddr) (r : Option Word) (t : State) (es : List Event) : Prop where
  failed  : es.any (fun e => !e.ok) = r.isNone
  earlier : ∀ e ∈ es.dropLast, e.ok = true
  last    : r = none → ∃ e, es.getLast? = some e ∧ e.ok = false
  valid   : t.lastValid = r.isSome
  reg     : r.isSome = true → t.lastReg = a
  image   : ∀ w rest, r = some w → firstImage (es ++ rest) = some w
  writes  : writtenRegs es = []
  length  : r.isSome = true → es.length = if s.hits a then 1 else 2
  short   : es.length ≤ 2
  nonempty : es ≠ []
  pointer : ∀ p, (s.hits a = true → p = some a) → r.isSome = true → es.foldl pointerAfter p = some a
  addressed : ∀ p, (s.hits a = true → p = some a) → readsAddressed p es = true
  legal   : mapped a = true → ∀ e ∈ es, e.legal s.devAddr s.params.stopAfterData = true

theorem readPath_facts {s t : State} {a : RegAddr} {r : Option Word} {es : List Event} (h : ReadPath s a r t es) :
    ReadFacts s a r t es := by
  cases h with
  | fastOk _ hit n last reg =>
    refine ⟨?_, ?_, ?_, ?_, ?_, ?_, ?_, ?_, ?_, ?_, ?_, ?_, ?_⟩ <;>
      simp_all [firstImage, writtenRegs, dataEvent, Event.ok, Event.legal, pointerAfter, readsAddressed, ← toNat_imageOf]
  | fastFail _ hit n last reg =>
    refine ⟨?_, ?_, ?_, ?_, ?_, ?_, ?_, ?_, ?_, ?_, ?_, ?_, ?_⟩ <;>
      simp_all [firstImage, writtenRegs, dataEvent, Event.ok, Event.legal, pointerAfter, readsAddressed]
  | addressFail _ miss n last reg =>
    refine ⟨?_, ?_, ?_, ?_, ?_, ?_, ?_, ?_, ?_, ?_, ?_, ?_, ?_⟩ <;>
      simp_all [firstImage, writtenRegs, addrEvent, Event.ok, Event.legal, pointerAfter, readsAddressed]
  | slowOk _ miss n m last reg =>
    refine ⟨?_, ?_, ?_, ?_, ?_, ?_, ?_, ?_, ?_, ?_, ?_, ?_, ?_⟩ <;>
      simp_all [firstImage, writtenRegs, dataEvent, addrEvent, Event.ok, Event.legal, pointerAfter, readsAddressed, ← toNat_imageOf]
  | slowFail _ miss n m last reg =>
    refine ⟨?_, ?_, ?_, ?_, ?_, ?_, ?_, ?_, ?_, ?_, ?_, ?_, ?_⟩ <;>
      simp_all [firstImage, writtenRegs, dataEvent, addrEvent, Event.ok, Event.legal, pointerAfter, readsAddressed]

/-- What the one call of a `WriteReg` shows (R62). -/
structure WriteFacts (s : State) (a : RegAddr) (b : Bool) (t : State) (es : List Event) : Prop where
  single  : ∃ e, es = [e] ∧ e.ok = b
  valid   : t.lastValid = b
  reg     : b = true → t.lastReg = a
  writes  : ∀ rest, writtenRegs (es ++ rest) = a :: writtenRegs rest
  pointer : ∀ p, b = true → es.foldl pointerAfter p = some a
  addressed : ∀ p, readsAddressed p es = true
  legal   : writable a = true → ∀ e ∈ es, e.legal s.devAddr s.params.stopAfterData = true

theorem writePath_facts {s t : State} {a : RegAddr} {v : Word} {b : Bool} {es : List Event}
    (h : WritePath s a v b t es) : WriteFacts s a b t es := by
  cases h with
  | ok _ n last reg =>
    refine ⟨⟨_, rfl, ?_⟩, ?_, ?_, ?_, ?_, ?_, ?_⟩ <;>
      simp_all [writtenRegs, frameEvent, Event.ok, Event.legal, pointerAfter, readsAddressed]
  | fail _ n last reg =>
    refine ⟨⟨_, rfl, ?_⟩, ?_, ?_, ?_, ?_, ?_, ?_⟩ <;>
      simp_all [writtenRegs, frameEvent, Event.ok, Event.legal, pointerAfter, readsAddressed]

/-! ### The register map -/

/-- With the parameters that place the registers as the source does, they are these three values. -/
theorem sourceMap_iff (p : Params) : p.sourceMap = true ↔ p.idReg = 0xFF ∧ p.nchan = 3 ∧ p.chPeriod = 2 := by
  simp only [Params.sourceMap, Bool.and_eq_true, beq_iff_eq, and_assoc]

theorem validChannel_three {ch : Byte} (h : validChannel 3 ch = true) : ch = 1 ∨ ch = 2 ∨ ch = 3 := by
  simp only [validChannel, Bool.and_eq_true, decide_eq_true_eq] at h
  have : ch.toNat = 1 ∨ ch.toNat = 2 ∨ ch.toNat = 3 := by omega
  exact this.imp BitVec.eq_of_toNat_eq (Or.imp BitVec.eq_of_toNat_eq BitVec.eq_of_toNat_eq)

/-- The three addresses of a row of R56, by its base. -/
theorem row_source {p : Params} {k : Kind} {base a : RegAddr} {ch : Byte} (hm : p.sourceMap = true)
    (h : (channelRow p k base ch).map (·.2) = some a) :
    a = chanAddr 2 base 1 ∨ a = chanAddr 2 base 2 ∨ a = chanAddr 2 base 3 := by
  obtain ⟨-, hn, hp⟩ := (sourceMap_iff p).1 hm
  obtain ⟨⟨k', b⟩, hk, rfl⟩ := Option.map_eq_some_iff.1 h
  obtain ⟨hv, -, rfl⟩ := row_cases hk
  rw [hn] at hv
  rw [hp]
  rcases validChannel_three hv with rfl | rfl | rfl
  · exact .inl rfl
  · exact .inr (.inl rfl)
  · exact .inr (.inr rfl)

theorem mapped_of_readTarget {p : Params} {i : Instr} {a : RegAddr} (hm : p.sourceMap = true)
    (h : readTarget p i = some a) : mapped a = true := by
  cases i
  all_goals first
    | (obtain rfl | rfl | rfl := row_source hm h <;> rfl)
    | (cases h; done)
    | (cases h; rfl)

theorem writable_of_writeTarget {p : Params} {i : Instr} {a : RegAddr} (hm : p.sourceMap = true)
    (h : writeTarget p i = some a) : writable a = true := by
  cases i
  all_goals first
    | (obtain rfl | rfl | rfl := row_source hm h <;> rfl)
    | (cases h; done)
    | (cases h; rfl)

theorem mapped_of_writable {a : RegAddr} (h : writable a = true) : mapped a = true := by
  revert a; decide +kernel

/-- No command both reads and writes a register of the map, INIT apart; and neither kind is a codec operation. -/
theorem target_kinds (p : Params) (i : Instr) :
    (isCodec i = true → readTarget p i = none ∧ writeTarget p i = none ∧ i ≠ .init) ∧
      ((readTarget p i).isSome = true → writeTarget p i = none ∧ needsSession i = true ∧ i ≠ .init) ∧
      ((writeTarget p i).isSome = true → readTarget p i = none ∧ needsSession i = true ∧ i ≠ .init) := by
  cases i <;>
    simp [isCodec, Instr.op, needsSession, readTarget, writeTarget, voltGetter, voltSetter]

end Sys2Proof.Machine
end

