-- ==== Sys2Proof/Laws/Step.lean ====
section
/-! SUPPORT. What a whole command and a whole step can do, said once: what each exit of INIT shows (42_session_control.md
R172), the four kinds of step, when a command is refused, and that the transport sequences keep the invariant. -/

namespace Sys2Proof.Machine

/-! ### INIT -/

theorem newCalls_of_trace {s t : State} {es : List Event} (h : t.trace = s.trace ++ es) : newCalls s t = es := by
  unfold newCalls
  rw [h, List.drop_left]

/-- What every exit of INIT shows (R172, R173): its status from its calls, and what it leaves. -/
structure InitFacts (s t : State) : Prop where
  ready   : t.ready = decide (t.status = 0)
  calls   : t.trace = s.trace ++ newCalls s t
  short   : (newCalls s t).length ≤ 4
  earlier : ∀ e ∈ (newCalls s t).dropLast, e.ok = true
  status  : t.status = if (newCalls s t).any (fun e => !e.ok) then 1
      else if firstImage (newCalls s t) ≠ some s.params.expectedId then 2 else 0
  failed  : t.status = 1 → t.lastValid = false ∧ ∃ e, (newCalls s t).getLast? = some e ∧ e.ok = false
  valid   : t.status ≠ 1 → t.lastValid = true
  reg     : t.status = 0 → t.lastReg = 0
  vendor  : t.status = 2 → t.lastReg = s.params.idReg ∧ writtenRegs (newCalls s t) = []
  writes  : writtenRegs (newCalls s t) <+: [0x00, 0x00]
  written : t.status = 0 → writtenRegs (newCalls s t) = [0x00, 0x00]
  length  : t.status = 0 → (newCalls s t).length = if s.lastValid = true ∧ s.lastReg = s.params.idReg then 3 else 4

theorem initRun_facts {s t : State} (h : InitRun s t) : InitFacts s t := by
  have hh : ∀ n m : Nat,
      (if s.hits s.params.idReg = true then n else m) =
        (if s.lastValid = true ∧ s.lastReg = s.params.idReg then n else m) := by
    intro n m; simp only [hits_iff]
  cases h with
  | readFail s1 es read access ends =>
    have f := readPath_facts read
    have tr : t.trace = s.trace ++ es := ends.session.trace.trans access.trace
    have e' := newCalls_of_trace tr
    obtain ⟨x, hx, hok⟩ := f.last rfl
    have st : t.status = 1 := ends.status
    have rd : t.ready = false := ends.session.ready.trans access.ready
    have lv : t.lastValid = false := ends.session.lastValid.trans f.valid
    have an := f.failed
    have sh := f.short
    refine ⟨by rw [rd, st]; rfl, tr.trans (by rw [e']), by rw [e']; omega, by rw [e']; exact f.earlier,
        by rw [e', st, an]; rfl, fun _ => ⟨lv, x, by rw [e']; exact hx, hok⟩, fun h => absurd st h, ?_, ?_,
        by rw [e', f.writes]; exact List.nil_prefix, ?_, ?_⟩ <;> (rw [st]; intro h; exact absurd h (by decide))
  | vendor id s1 es read access mismatch ends =>
    have f := readPath_facts read
    have tr : t.trace = s.trace ++ es := ends.session.trace.trans access.trace
    have e' := newCalls_of_trace tr
    have st : t.status = 2 := ends.status
    have rd : t.ready = false := ends.session.ready.trans access.ready
    have lv : t.lastValid = true := ends.session.lastValid.trans f.valid
    have an := f.failed
    have im := f.image id [] rfl
    rw [List.append_nil] at im
    have sh := f.short
    refine ⟨by rw [rd, st]; rfl, tr.trans (by rw [e']), by rw [e']; omega, by rw [e']; exact f.earlier,
        by rw [e', st, an, im]; simp [mismatch], ?_, fun _ => lv, ?_, fun _ => ⟨ends.session.lastReg.trans (f.reg rfl),
        by rw [e', f.writes]⟩, by rw [e', f.writes]; exact List.nil_prefix, ?_,
        ?_⟩ <;> (rw [st]; intro h; exact absurd h (by decide))
  | firstFail s1 s2 es fs read access first access1 ends =>
    have f := readPath_facts read
    have g := writePath_facts first
    have tr : t.trace = s.trace ++ (es ++ fs) := ends.session.trace.trans (access.trans access1).trace
    have e' := newCalls_of_trace tr
    have st : t.status = 1 := ends.status
    have rd : t.ready = false := ends.session.ready.trans (access1.ready.trans access.ready)
    have lv : t.lastValid = false := ends.session.lastValid.trans g.valid
    obtain ⟨x, rfl, hok⟩ := g.single
    have sh := f.short
    have hl := f.failed
    have w1 : writtenRegs (newCalls s t) = [configReg] := by
      rw [e', writtenRegs_append_of_nil f.writes]; exact g.writes []
    refine ⟨by rw [rd, st]; rfl, tr.trans (by rw [e']), by rw [e']; simp; omega, ?_, by rw [e', st]; simp [hok],
        fun _ => ⟨lv, x, by rw [e']; simp, hok⟩, fun h => absurd st h, ?_, ?_, by rw [w1]; exact ⟨[0], rfl⟩, ?_, ?_⟩
    · rw [e', List.dropLast_concat]; intro y hy; simpa using List.any_eq_false.1 hl y hy
    all_goals (rw [st]; intro h; exact absurd h (by decide))
  | secondFail s1 s2 s3 es fs gs read access first access1 second access2 ends =>
    have f := readPath_facts read
    have g := writePath_facts first
    have g2 := writePath_facts second
    have tr : t.trace = s.trace ++ (es ++ fs ++ gs) := ends.session.trace.trans ((access.trans access1).trans access2).trace
    have e' := newCalls_of_trace tr
    have st : t.status = 1 := ends.status
    have rd : t.ready = false := ends.session.ready.trans (access2.ready.trans (access1.ready.trans access.ready))
    have lv : t.lastValid = false := ends.session.lastValid.trans g2.valid
    have w1 : writtenRegs (newCalls s t) = [configReg, configReg] := by
      rw [e', List.append_assoc, writtenRegs_append_of_nil f.writes,
          g.writes]; have := g2.writes []; rw [List.append_nil] at this; rw [this]; rfl
    obtain ⟨x, rfl, hok⟩ := g.single
    obtain ⟨y, rfl, hok2⟩ := g2.single
    have sh := f.short
    have hl := f.failed
    refine ⟨by rw [rd, st]; rfl, tr.trans (by rw [e']), by rw [e']; simp; omega, ?_, by rw [e', st]; simp [hok2],
        fun _ => ⟨lv, y, by rw [e']; simp, hok2⟩, fun h => absurd st h, ?_, ?_, by rw [w1]; exact ⟨[], rfl⟩, ?_, ?_⟩
    · rw [e', List.dropLast_concat]; intro z hz
      rcases List.mem_append.1 hz with h | h
      · simpa using List.any_eq_false.1 hl z h
      · rw [List.mem_singleton] at h; rw [h, hok]
    all_goals (rw [st]; intro h; exact absurd h (by decide))
  | ok s1 s2 s3 es fs gs read access first access1 second access2 ends =>
    have f := readPath_facts read
    have g := writePath_facts first
    have g2 := writePath_facts second
    have tr : t.trace = s.trace ++ (es ++ fs ++ gs) := ends.session.trace.trans ((access.trans access1).trans access2).trace
    have e' := newCalls_of_trace tr
    have st : t.status = 0 := ends.status
    have rd : t.ready = true := ends.session.ready
    have lv : t.lastValid = true := ends.session.lastValid.trans g2.valid
    have w1 : writtenRegs (newCalls s t) = [configReg, configReg] := by
      rw [e', List.append_assoc, writtenRegs_append_of_nil f.writes,
          g.writes]; have := g2.writes []; rw [List.append_nil] at this; rw [this]; rfl
    obtain ⟨x, rfl, hok⟩ := g.single
    obtain ⟨y, rfl, hok2⟩ := g2.single
    have sh := f.short
    have hl := f.failed
    have im := f.image _ [x, y] rfl
    have ln := f.length rfl
    rw [show (s.setReady false).hits s.params.idReg = s.hits s.params.idReg from rfl, hh] at ln
    refine ⟨by rw [rd, st]; rfl, tr.trans (by rw [e']), by rw [e']; simp; omega, ?_, ?_,
        fun h => by rw [st] at h; exact absurd h (by decide), fun _ => lv,
        fun _ => ends.session.lastReg.trans (g2.reg rfl), fun h => by rw [st] at h; exact absurd h (by decide),
        by rw [w1]; exact ⟨[], rfl⟩, fun _ => w1, ?_⟩
    · rw [e', List.dropLast_concat]; intro z hz
      rcases List.mem_append.1 hz with h | h
      · simpa using List.any_eq_false.1 hl z h
      · rw [List.mem_singleton] at h; rw [h, hok]
    · rw [e', st, List.append_assoc]
      simp [im, hok, hok2]
      intro z hz; simpa using List.any_eq_false.1 hl z hz
    · intro _; rw [e']; simp only [List.length_append, ln, List.length_singleton]; split <;> rfl

/-! ### A step -/

/-- A step is idle, or a reset, or a reserved opcode, or one command; a command presents a value of `VOLT_T`. -/
theorem step_cases {s t : State} (h : step s = .next t) : s.params.wf = true ∧
    ((s.hostStream = [] ∧ t = s) ∨ (∃ rest,
        s.hostStream = .reset :: rest ∧ t = blockReset { s with hostStream := rest }) ∨
    (∃ c rest, s.hostStream = .command c :: rest ∧ s.params.voltDomain.has c.inV = true ∧ ((∃ e,
        decode c.cmd = .error e ∧ t = execReserved (present c rest s)) ∨
       ∃ i, decode c.cmd = .ok i ∧ exec i (present c rest s) = .next t))) := by
  unfold step at h
  split at h
  · rename_i hw
    refine ⟨hw, ?_⟩
    split at h
    · rename_i hs; exact .inl ⟨hs, by cases h; rfl⟩
    · rename_i rest hs; exact .inr (.inl ⟨rest, hs, by cases h; rfl⟩)
    · rename_i c rest hs
      unfold issue at h
      split at h
      · rename_i hd
        refine .inr (.inr ⟨c, rest, hs, hd, ?_⟩)
        unfold runCommand at h
        split at h
        · rename_i i hi; exact .inr ⟨i, hi, h⟩
        · rename_i e he; exact .inl ⟨e, he, by cases h; rfl⟩
      · cases h
  · cases h

/-- The step that takes a command is `issue`. -/
theorem step_command {s : State} {c : HostCommand} {rest : List HostInput} (hw : s.params.wf = true)
    (hs : s.hostStream = .command c :: rest) : step s = issue c rest s := by
  rw [step, if_pos hw, hs]

/-- A command that presents a value of `VOLT_T` is run. -/
theorem issue_run {s : State} {c : HostCommand} (hd : s.params.voltDomain.has c.inV = true) (rest : List HostInput) :
    issue c rest s = runCommand (present c rest s) := by
  rw [issue, if_pos hd]

theorem validChannel_of_row {p : Params} {k : Kind} {base a : RegAddr} {ch : Byte}
    (h : (channelRow p k base ch).map (·.2) = some a) : validChannel p.nchan ch = true := by
  obtain ⟨_, hk, -⟩ := Option.map_eq_some_iff.1 h
  exact (row_cases hk).1

/-- A getter's `arg`, if it has one, is valid. -/
theorem argValid_of_readTarget {p : Params} {i : Instr} {a : RegAddr} (h : readTarget p i = some a) :
    i.argValid p.nchan = true := by
  cases i
  all_goals first
    | rfl
    | exact validChannel_of_row h
    | (cases h)

/-- A setter's `arg`, if it has one, is valid. -/
theorem argValid_of_writeTarget {p : Params} {i : Instr} {a : RegAddr} (h : writeTarget p i = some a) :
    i.argValid p.nchan = true := by
  cases i
  all_goals first
    | rfl
    | exact validChannel_of_row h
    | (cases h)

/-- A command is refused for a NaN and for nothing else. -/
theorem exec_refused {i : Instr} {s : State} {r} (h : exec i s = .refused r) : r = .nanVoltage := by
  have sv : ∀ k a, setV k a s = .refused r → r = .nanVoltage := by
    intro k a h; unfold setV at h; split at h
    · split at h
      · cases h; rfl
      · cases h
    · cases h
  have scv : ∀ k b c, setChannelV k b c s = .refused r → r = .nanVoltage := by
    intro k b c h; unfold setChannelV at h; split at h
    · exact sv _ _ h
    · cases h
  cases i
  case voltToReg kind =>
    simp only [exec, execVoltToReg] at h; split at h
    · cases h
    · split at h
      · cases h; rfl
      · cases h
  case regToVolt kind =>
    simp only [exec, execRegToVolt] at h; split at h <;> cases h
  all_goals first | (cases h) | exact sv _ _ h | exact scv _ _ _ h

/-- With a number or an infinity on `in_v` a command has a next state. -/
theorem exec_next {i : Instr} {s : State} (h : s.inV ≠ .nan) : ∃ t, exec i s = .next t := by
  have enc : ∀ k, ∃ w, encodeVolt s.params k s.inV = some w := by
    intro k; cases hv : s.inV <;> simp [encodeVolt] ; exact h hv
  have sv : ∀ k a, ∃ t, setV k a s = .next t := by
    intro k a; obtain ⟨w, hw⟩ := enc k
    unfold setV; split
    · rw [hw]; exact ⟨_, rfl⟩
    · exact ⟨_, rfl⟩
  have scv : ∀ k b c, ∃ t, setChannelV k b c s = .next t := by
    intro k b c; unfold setChannelV; split
    · exact sv _ _
    · exact ⟨_, rfl⟩
  cases i
  case voltToReg kind =>
    simp only [exec, execVoltToReg]; split
    · exact ⟨_, rfl⟩
    · rename_i k _; obtain ⟨w, hw⟩ := enc k; rw [hw]; exact ⟨_, rfl⟩
  case regToVolt kind =>
    simp only [exec, execRegToVolt]; split <;> exact ⟨_, rfl⟩
  all_goals first | exact ⟨_, rfl⟩ | exact sv _ _ | exact scv _ _ _

/-- A transport sequence does not touch `out_v`, so what ends after it keeps it a value of `VOLT_T`. -/
theorem KeepsVolt.after {s s1 t : State} {es : List Event} (access : Access s s1 es) (h : KeepsVolt s1 t) : KeepsVolt s t := by
  unfold KeepsVolt at h ⊢
  rwa [access.untouched.params, access.outV] at h

/-- A command leaves on `out_v` a value of `VOLT_T`, if one was there. -/
theorem exec_keepsVolt {i : Instr} {s t : State} (h : exec i s = .next t) : KeepsVolt s t := by
  cases exec_run h with
  | badArgument _ ends => exact ends.volt
  | noSession _ _ _ ends => exact ends.volt
  | codec _ _ ends => exact ends.volt
  | get _ _ _ _ _ _ _ access ends => exact ends.volt.after access
  | set _ _ _ _ _ _ _ _ access ends => exact ends.volt.after access
  | init _ run =>
    change KeepsVolt (s.setReady false) t
    cases run with
    | readFail _ _ _ access ends => exact ends.volt.after access
    | vendor _ _ _ _ access _ ends => exact ends.volt.after access
    | firstFail _ _ _ _ _ access _ access1 ends => exact (ends.volt.after access1).after access
    | secondFail _ _ _ _ _ _ _ access _ access1 _ access2 ends =>
      exact ((ends.volt.after access2).after access1).after access
    | ok _ _ _ _ _ _ _ access _ access1 _ access2 ends =>
      exact (((show KeepsVolt _ _ from ends.volt).after access2).after access1).after access

/-! ### Parameters -/

theorem scale_wf {p : Params} (h : p.wf = true) (k : Kind) : (p.scale.get k).wf = true := by
  simp only [Params.wf, ScaleTable.wf, Bool.and_eq_true] at h
  cases k <;> simp only [ScaleTable.get] <;> tauto

theorem kindOf_number {kind : Byte} {k : Kind} (h : kind.toNat = kindNumber k) : kindOf kind = some k := by
  unfold kindOf
  rw [h]
  cases k <;> rfl

/-! ### The invariant -/

/-- The invariant looks at the parameters, `DEV_ADDR`, `status`, the voltage ports, the trace and the last-register pair
alone. -/
theorem inv_congr {s t : State} (h : s.Inv) (h1 : t.params = s.params) (h2 : t.devAddr = s.devAddr)
    (h3 : t.status.toNat ≤ 4) (hi : s.params.voltDomain.has t.inV = true) (ho : KeepsVolt s t)
    (h4 : t.trace = s.trace) (h5 : t.lastValid = s.lastValid) (h6 : t.lastReg = s.lastReg) : t.Inv := by
  refine ⟨by rw [h1]; exact h.params, by rw [h1]; exact h.map, by rw [h2, h1]; exact h.devAddr, h3, by rw [h1]; exact hi,
      by rw [h1]; exact ho h.outV, by rw [h4, h2, h1]; exact h.legal, by rw [h4]; exact h.addressed,
      by rw [h5, h6, h4]; exact h.lastReg⟩

/-- A register read of a mapped register keeps the invariant. -/
theorem inv_read {s s1 : State} {a r es} (h : s.Inv) (hm : mapped a = true) (read : ReadPath s a r s1 es)
    (access : Access s s1 es) : s1.Inv := by
  have f := readPath_facts read
  have hp : s.hits a = true → devicePointer s.trace = some a := by
    intro hh; obtain ⟨h1, h2⟩ := (hits_iff s a).1 hh; rw [← h2]; exact (h.lastReg h1).2
  refine ⟨by rw [access.untouched.params]; exact h.params, by rw [access.untouched.params]; exact h.map,
      by rw [access.untouched.devAddr, access.untouched.params]; exact h.devAddr, by rw [access.status]; exact h.status,
      by rw [access.untouched.params, access.untouched.inV]; exact h.inV,
      by rw [access.untouched.params, access.outV]; exact h.outV, ?_, ?_, ?_⟩
  · rw [access.trace, access.untouched.devAddr, access.untouched.params]
    intro e he; rcases List.mem_append.1 he with h' | h'
    · exact h.legal e h'
    · exact f.legal hm e h'
  · rw [access.trace, readsAddressed_append, h.addressed]; exact f.addressed _ hp
  · rw [f.valid]; intro hr
    rw [f.reg hr, access.trace, devicePointer_append]; exact ⟨hm, f.pointer _ hp hr⟩

/-- A register write of a writable register keeps the invariant. -/
theorem inv_write {s s1 : State} {a v b es} (h : s.Inv) (hm : writable a = true) (write : WritePath s a v b s1 es)
    (access : Access s s1 es) : s1.Inv := by
  have f := writePath_facts write
  refine ⟨by rw [access.untouched.params]; exact h.params, by rw [access.untouched.params]; exact h.map,
      by rw [access.untouched.devAddr, access.untouched.params]; exact h.devAddr, by rw [access.status]; exact h.status,
      by rw [access.untouched.params, access.untouched.inV]; exact h.inV,
      by rw [access.untouched.params, access.outV]; exact h.outV, ?_, ?_, ?_⟩
  · rw [access.trace, access.untouched.devAddr, access.untouched.params]
    intro e he; rcases List.mem_append.1 he with h' | h'
    · exact h.legal e h'
    · exact f.legal hm e h'
  · rw [access.trace, readsAddressed_append, h.addressed]; exact f.addressed _
  · rw [f.valid]; intro hr
    rw [f.reg hr, access.trace, devicePointer_append]; exact ⟨mapped_of_writable hm, f.pointer _ hr⟩

theorem code_le (e : Status) : e.code.toNat ≤ 4 := by cases e <;> decide

/-- The end of a command keeps the invariant. -/
theorem inv_ends {s t e} (h : s.Inv) (ends : Ends s t e) : t.Inv :=
  inv_congr h ends.untouched.params ends.untouched.devAddr (by rw [ends.status]; exact code_le e)
    (by rw [ends.untouched.inV]; exact h.inV) ends.volt ends.session.trace ends.session.lastValid ends.session.lastReg

end Sys2Proof.Machine
end

