-- ==== Sys2Proof/Tests/Slice0.lean ====
section
/-! SUPPORT. Tests and witnesses. Every expected word, trace, status and voltage comes from 95_test_vectors.md, by part and
row; a test on fixed values checks the model's text and is no claim. A witness shows that the hypotheses of an obligation
can all be met, clause by clause. -/

namespace Sys2Proof.Machine

/-- The two's-complement sign mode, the `tc` columns of the vectors. -/
def State.tc (s : State) : State := { s with params := { s.params with signMode := .twos } }

/-- A floating-point `VOLT_T`. -/
def State.float (s : State) : State := { s with params := { s.params with voltDomain := .binaryFloat } }

/-- Operand ports. -/
def State.onV (s : State) (q : Rat) : State := { s with inV := .num q }
def State.onReg (s : State) (w : Word) : State := { s with inReg := w }
def State.onCfg (s : State) (c : DeviceConfig) : State := { s with inCfg := c }
def State.onMe (s : State) (m : MaskEnable) : State := { s with inMe := m }

end Sys2Proof.Machine

namespace Sys2Proof.Tests

open Sys2Proof.Machine

/-! ### Decoding: one word per command, from 30_encoding.md R92 (95_test_vectors.md 2.4) -/

theorem test_decode_codec :
    decode 0b0000_0001_0000_0000 = .ok .packConfig ∧ decode 0b0000_0010_0000_0000 = .ok .unpackConfig ∧
      decode 0b0000_0011_0000_0000 = .ok .packMaskEnable ∧ decode 0b0000_0100_0000_0000 = .ok .unpackMaskEnable ∧
      decode 0b0000_0101_0000_0001 = .ok (.voltToReg 1) ∧ decode 0b0000_0110_0000_0111 = .ok (.regToVolt 7) := by
  decide

theorem test_decode_control :
    decode 0b0001_0000_0000_0000 = .ok .init ∧ decode 0b0001_0001_0000_0000 = .ok .getConfig ∧
      decode 0b0001_0010_0000_0000 = .ok .setConfig ∧ decode 0b0001_0011_0000_0000 = .ok .getMaskEnable ∧
      decode 0b0001_0100_0000_0000 = .ok .setMaskEnable := by
  decide

theorem test_decode_channel :
    decode 0b0010_0000_0000_0001 = .ok (.shuntVoltageV 1) ∧ decode 0b0010_0001_0000_0010 = .ok (.busVoltageV 2) ∧
      decode 0b0010_0010_0000_0001 = .ok (.getCritLimitV 1) ∧ decode 0b0010_0011_0000_0011 = .ok (.setCritLimitV 3) ∧
      decode 0b0010_0100_0000_0011 = .ok (.getWarnLimitV 3) ∧ decode 0b0010_0101_0000_0010 = .ok (.setWarnLimitV 2) := by
  decide

theorem test_decode_single :
    decode 0b0010_0110_0000_0011 = .ok .shuntSumV ∧ decode 0b0010_0111_0000_0000 = .ok .getSumLimitV ∧
      decode 0b0010_1000_0000_0000 = .ok .setSumLimitV ∧ decode 0b0010_1001_0000_0000 = .ok .getPvUpperV ∧
      decode 0b0010_1010_0000_0000 = .ok .setPvUpperV ∧ decode 0b0010_1011_0000_0000 = .ok .getPvLowerV ∧
      decode 0b0010_1100_0000_0000 = .ok .setPvLowerV := by
  decide

/-- The reserved words of 2.4, rejected by name. -/
theorem test_decode_reserved :
    [(0x0000 : Word), 0x0700, 0x0F12, 0x1500, 0x1F00, 0x2D00, 0xFF00].map decode =
      [(0x00 : Byte), 0x07, 0x0F, 0x15, 0x1F, 0x2D, 0xFF].map fun op => .error (.reservedOpcode op) := by
  decide

theorem test_decodeTableWord :
    decodeTableWord 16 0x2104 = some (.busVoltageV 4) ∧ decodeTableWord 16 0xFF00 = none := by
  decide

/-! ### Well-formedness: one ill-formed term per check (30_encoding.md R94, 00_scope.md R8) -/

theorem test_wf_channel :
    (Instr.busVoltageV 0).wf = false ∧ (Instr.busVoltageV 4).wf = false ∧ (Instr.shuntVoltageV 255).wf = false ∧
      (Instr.getCritLimitV 0).wf = false ∧ (Instr.setCritLimitV 4).wf = false ∧ (Instr.getWarnLimitV 4).wf = false ∧
      (Instr.setWarnLimitV 0).wf = false ∧ (Instr.busVoltageV 3).wf = true := by
  decide

theorem test_wf_kind :
    (Instr.voltToReg 8).wf = false ∧ (Instr.regToVolt 255).wf = false ∧ (Instr.voltToReg 7).wf = true := by
  decide

theorem test_wf_scale :
    (Scale.mk 0 4095 3).wf = false ∧ (Scale.mk (-1) 4095 3).wf = false ∧ (Scale.mk 10 0 3).wf = false ∧
      (Scale.mk 10 1 15).wf = false ∧ (Scale.mk 10 4096 3).wf = false ∧ (Scale.mk 10 4095 3).wf = true := by
  decide +kernel

theorem test_wf_layout : ({ MeLayout.reference with cvrf := 1 } : MeLayout).wf = false := by
  decide

/-- R58: `0x08 + 124 * 2` is the first address that wraps around. -/
theorem test_wf_channels :
    ({ Params.reference with chPeriod := 124 } : Params).wf = false ∧ ({ Params.reference with chPeriod := 123 } : Params).wf = true := by
  decide +kernel

theorem test_wf_reference : Params.reference.wf = true := by
  decide +kernel

/-! ### The states the tests use -/

/-- The reference instance with `DEV_ADDR = 0x40`, in a given session state, with given answers to come. -/
def demo (ready : Bool) (last : Option RegAddr) (answers : List Answer) : State :=
  { State.resetWith { Params.reference with devAddr := 0x40 } with
    ready := ready
    lastValid := last.isSome
    lastReg := last.getD 0
    answers := answers }

/-- The parameters of the test machine. -/
def par : Params := (demo true none []).params

/-- The record `{mode=7, shunt_ct=4, bus_ct=4, avg=0, ch1_en=1, ch2_en=1, ch3_en=1, rst=0}` of the INIT vectors. -/
def cfgP1 : DeviceConfig := ⟨7, 4, 4, 0, true, true, true, false⟩

/-- No flag, and `{scc1, scc2, scc3, tcf}`. -/
def me0 : MaskEnable := State.reset.inMe
def meTcf : MaskEnable := { me0 with scc1 := true, scc2 := true, scc3 := true, tcf := true }

/-- Transport calls to the test device, in the notation of 00_scope.md R14. -/
def W (bytes : List Byte) (stop : Bool) (n : Int) : Event := .write 0x40 bytes stop n
def R (n : Int) (b0 b1 : Byte) : Event := .read 0x40 2 true n [b0, b1]

/-- Answers of a slow read of `b0 b1`, of a fast one, and of a write. -/
def slow (b0 b1 : Byte) : List Answer := [⟨1, 0, 0⟩, ⟨2, b0, b1⟩]
def fast (b0 b1 : Byte) : List Answer := [⟨2, b0, b1⟩]
def acked : List Answer := [⟨3, 0, 0⟩]

/-- `p` holds of the next state of the command, if there is one. -/
def next (i : Instr) (s : State) (p : State → Bool) : Bool :=
  match exec i s with
  | .next t => p t
  | .fault _ => false
  | .refused _ => false

/-- `p` holds of the state after the step that runs the command word `w`. -/
def stepped (w : Nat) (s : State) (p : State → Bool) : Bool :=
  match step (s.withFetchWord 16 w) with
  | .next t => p t
  | .fault _ => false
  | .refused _ => false

/-- Status, session state and trace: what the rows of 2.5 to 2.8 list. -/
def shows (status : BitVec 3) (ready : Bool) (last : Option RegAddr) (trace : List Event) (t : State) : Bool :=
  t.status == status && t.ready == ready && (if t.lastValid then some t.lastReg else none) == last && t.trace == trace

/-! ### 2.1 Bit fields -/

theorem test_packConfig :
    stepped 0x01FF ((demo false none []).onCfg ⟨3, 2, 5, 6, false, true, false, false⟩)
      (fun t => t.outReg == 0x2D53 && shows 0 false none [] t) = true := by decide

theorem test_packConfig_channels :
    packConfig { cfgP1 with ch2En := false, ch3En := false } = 0x4127 ∧ packConfig cfgP1 = 0x7127 := by decide

theorem test_unpackConfig :
    stepped 0x0200 ((demo true none []).onReg 0x7127) (fun t => t.outCfg == cfgP1) = true := by decide

theorem test_packMaskEnable : stepped 0x0300 ((demo false none []).onMe meTcf) (fun t => t.outReg == 0x7002) = true := by
  decide

theorem test_unpackMaskEnable :
    stepped 0x0400 ((demo false none []).onReg 0xF002) (fun t => t.outMe == meTcf) = true := by decide

theorem test_unpackMaskEnable_mixed :
    packMaskEnable .reference { me0 with sf := true, cf2 := true, wf3 := true, pvf := true } = 0x014C := by decide

/-! ### 2.2, 2.3 Voltages -/

theorem test_voltToReg_truncates :
    stepped 0x0501 ((demo false none []).onV (-33 / 10)) (fun t => t.outReg == 0x8CE0) = true ∧
      stepped 0x0501 (State.tc ((demo false none []).onV (-33 / 10))) (fun t => t.outReg == 0xF320) = true := by
  decide +kernel

theorem test_voltToReg_clamps :
    stepped 0x0507 ((demo false none []).onV (-95 / 10)) (fun t => t.outReg == 0xA328) = true ∧
      stepped 0x0508 (demo false none []) (shows 3 false none []) = true := by
  decide +kernel

theorem test_regToVolt_sign :
    stepped 0x0601 ((demo false none []).onReg 0xD120) (fun t => t.outV == .num (-20768 / 1000)) = true ∧
      stepped 0x0601 (State.tc ((demo false none []).onReg 0xD120)) (fun t => t.outV == .num (-12)) = true := by
  decide +kernel

theorem test_regToVolt_no_clamp :
    stepped 0x0604 ((demo false none []).onReg 0x7FFC) (fun t => t.outV == .num (32764 / 100000)) = true ∧
      stepped 0x0601 (State.tc ((demo false none []).onReg 0x8000)) (fun t => t.outV == .num (-32768 / 1000)) = true ∧
      stepped 0x06FF (demo true none []) (shows 3 true none []) = true := by
  decide +kernel

/-! ### 2.6 Control -/

theorem test_init_ok :
    stepped 0x1000 ((demo false none [⟨1, 0, 0⟩, ⟨2, 0x32, 0x20⟩, ⟨3, 0, 0⟩, ⟨3, 0, 0⟩]).onCfg { cfgP1 with rst := true })
      (shows 0 true (some 0x00)
        [W [0xFF] false 1, R 2 0x32 0x20, W [0x00, 0x80, 0x00] true 3, W [0x00, 0x71, 0x27] true 3]) = true := by
  decide

theorem test_init_vendor :
    stepped 0x10A5 ((demo true none [⟨1, 0, 0⟩, ⟨2, 0x12, 0x34⟩]).onCfg cfgP1)
      (shows 2 false (some 0xFF) [W [0xFF] false 1, R 2 0x12 0x34]) = true := by
  decide

theorem test_getConfig :
    stepped 0x1100 (demo true none [⟨1, 0, 0⟩, ⟨2, 0x71, 0x27⟩])
      (fun t => t.outCfg == cfgP1 && shows 0 true (some 0x00) [W [0x00] false 1, R 2 0x71 0x27] t) = true := by
  decide

theorem test_getConfig_address_fails :
    stepped 0x1100 (demo true none [⟨0, 0, 0⟩]) (shows 1 true none [W [0x00] false 0]) = true := by decide

theorem test_setConfig_rst :
    stepped 0x1200 ((demo true none [⟨3, 0, 0⟩]).onCfg (unpackConfig 0x8000))
      (shows 0 true (some 0x00) [W [0x00, 0x80, 0x00] true 3]) = true := by
  decide

theorem test_getMaskEnable :
    stepped 0x1300 (demo true none [⟨1, 0, 0⟩, ⟨2, 0x08, 0x01⟩])
      (fun t => t.outMe == { me0 with cvrf := true, wen := true } &&
        shows 0 true (some 0x0F) [W [0x0F] false 1, R 2 0x08 0x01] t) = true := by
  decide

theorem test_setMaskEnable :
    stepped 0x1400 ((demo true none [⟨3, 0, 0⟩]).onMe meTcf) (shows 0 true (some 0x0F) [W [0x0F, 0x70, 0x02] true 3]) = true := by
  decide

theorem test_setMaskEnable_fails :
    stepped 0x1400 (demo true none [⟨1, 0, 0⟩]) (shows 1 true none [W [0x0F, 0x00, 0x00] true 1]) = true := by decide

/-- R7: `ID_REG` is where INIT reads; `NCHAN` bounds the channels; `CH_PERIOD` spaces their registers (R58: `0x02 + 8 * 1`). -/
theorem test_parameters_are_read :
    let s := demo true none (slow 0 0)
    stepped 0x1000 { s with params := { s.params with idReg := 0xFE } } (fun t => t.lastReg == 0xFE) = true ∧
      stepped 0x2103 { s with params := { s.params with nchan := 2 } } (fun t => t.status == 3) = true ∧
      stepped 0x2102 { s with params := { s.params with chPeriod := 8 } } (fun t => t.lastReg == 0x0A) = true := by
  decide

/-! ### 2.7 Voltage commands -/

theorem test_shuntVoltageV :
    stepped 0x2001 (demo true none [⟨1, 0, 0⟩, ⟨2, 0xBE, 0x80⟩])
      (fun t => t.outV == .num (-8 / 100) && shows 0 true (some 0x01) [W [0x01] false 1, R 2 0xBE 0x80] t) = true ∧
      stepped 0x2001 (State.tc (demo true none [⟨1, 0, 0⟩, ⟨2, 0xBE, 0x80⟩])) (fun t => t.outV == .num (-8384 / 100000)) = true := by
  decide +kernel

/-- P2, command 2: the fast path. -/
theorem test_busVoltageV_fast :
    stepped 0x2102 (demo true (some 0x04) [⟨2, 0x2E, 0xE8⟩])
      (fun t => t.outV == .num (12008 / 1000) && shows 0 true (some 0x04) [R 2 0x2E 0xE8] t) = true := by
  decide +kernel

/-- 2.8: the argument is checked before `READY`. -/
theorem test_busVoltageV_argument :
    stepped 0x2104 (demo false (some 0xFF) []) (shows 3 false (some 0xFF) []) = true ∧
      stepped 0x2101 (demo false (some 0xFF) []) (shows 4 false (some 0xFF) []) = true := by
  decide

theorem test_getCritLimitV :
    stepped 0x2201 (demo true none [⟨1, 0, 0⟩, ⟨2, 0x7F, 0xF8⟩])
      (fun t => t.outV == .num (1638 / 10000) && shows 0 true (some 0x07) [W [0x07] false 1, R 2 0x7F 0xF8] t) = true := by
  decide +kernel

theorem test_setCritLimitV :
    stepped 0x2303 ((demo true none [⟨3, 0, 0⟩]).onV (8 / 100)) (shows 0 true (some 0x0B) [W [0x0B, 0x3E, 0x80] true 3]) = true := by
  decide +kernel

theorem test_getWarnLimitV :
    stepped 0x2403 (demo true none [⟨1, 0, 0⟩, ⟨2, 0x1F, 0x40⟩])
      (fun t => t.outV == .num (4 / 100) && shows 0 true (some 0x0C) [W [0x0C] false 1, R 2 0x1F 0x40] t) = true := by
  decide +kernel

theorem test_setWarnLimitV :
    stepped 0x2501 ((demo true none [⟨3, 0, 0⟩]).onV (-2 / 100)) (shows 0 true (some 0x08) [W [0x08, 0x8F, 0xA0] true 3]) = true ∧
      stepped 0x2501 (State.tc ((demo true none [⟨3, 0, 0⟩]).onV (-2 / 100)))
        (shows 0 true (some 0x08) [W [0x08, 0xF0, 0x60] true 3]) = true := by
  decide +kernel

theorem test_shuntSumV :
    stepped 0x2600 (demo true none [⟨1, 0, 0⟩, ⟨2, 0x1F, 0x40⟩])
      (fun t => t.outV == .num (8 / 100) && shows 0 true (some 0x0D) [W [0x0D] false 1, R 2 0x1F 0x40] t) = true := by
  decide +kernel

theorem test_getSumLimitV :
    stepped 0x2700 (demo true none [⟨1, 0, 0⟩, ⟨2, 0x27, 0x10⟩])
      (fun t => t.outV == .num (1 / 10) && shows 0 true (some 0x0E) [W [0x0E] false 1, R 2 0x27 0x10] t) = true := by
  decide +kernel

theorem test_setSumLimitV :
    stepped 0x2800 ((demo true none [⟨3, 0, 0⟩]).onV (1 / 10)) (shows 0 true (some 0x0E) [W [0x0E, 0x27, 0x10] true 3]) = true := by
  decide +kernel

theorem test_getPvUpperV :
    stepped 0x2900 (demo true none [⟨1, 0, 0⟩, ⟨2, 0x27, 0x10⟩])
      (fun t => t.outV == .num 10 && shows 0 true (some 0x10) [W [0x10] false 1, R 2 0x27 0x10] t) = true := by
  decide +kernel

theorem test_setPvUpperV_clamps :
    stepped 0x2A00 ((demo true none [⟨3, 0, 0⟩]).onV 12) (shows 0 true (some 0x10) [W [0x10, 0x27, 0x10] true 3]) = true := by
  decide +kernel

theorem test_getPvLowerV :
    stepped 0x2B00 (demo true none [⟨1, 0, 0⟩, ⟨2, 0x23, 0x28⟩])
      (fun t => t.outV == .num 9 && shows 0 true (some 0x11) [W [0x11] false 1, R 2 0x23 0x28] t) = true := by
  decide +kernel

theorem test_setPvLowerV_truncates :
    stepped 0x2C00 ((demo true none [⟨3, 0, 0⟩]).onV (45 / 10)) (shows 0 true (some 0x11) [W [0x11, 0x11, 0x90] true 3]) = true := by
  decide +kernel

/-! ### Witnesses: the hypotheses of each obligation, met clause by clause -/

/-- The test machine when the host is about to do `x`. -/
def about (x : HostInput) (s : State) : State := { s with hostStream := [x] }

/-- A command word with zero operands. -/
def word (w : Word) : HostInput := .command ⟨w, State.reset.inCfg, State.reset.inMe, .num 0, 0⟩

/-- `s` has admitted parameters and steps to a state of which `p` holds. -/
def steps (s : State) (p : State → Bool) : Bool :=
  s.params.wf &&
    match step s with
    | .next t => p t
    | .fault _ => false
    | .refused _ => false

theorem witness_DecodeAndEncodeAgree :
    (decode 0x2103 = .ok (.busVoltageV 3) ∧ formatN (.busVoltageV 3) = false) ∧
      decode 0x10A5 = .ok .init ∧ formatN .init = true := by
  decide

theorem witness_FormatNArgumentIsIgnored : formatN .packConfig = true ∧ formatN .setPvLowerV = true := by decide

/-- The boundary values of R95's four ranges. -/
theorem witness_ReservedOpcodeEndsInvalidArgument :
    [(0x00FF : Word), 0x0700, 0x0F12, 0x1500, 0x1F00, 0x2D00, 0xFFFF].all (fun w =>
      steps (about (word w) (demo true (some 4) [])) fun t => t.status == 3 &&
        (let op := w.toNat / 256
         decide (op = 0 ∨ (0x07 ≤ op ∧ op ≤ 0x0F) ∨ (0x15 ≤ op ∧ op ≤ 0x1F) ∨ 0x2D ≤ op))) = true := by
  decide

theorem witness_StepRunsDecodedCommand :
    (demo true none []).params.wf = true ∧ par.voltDomain.has (.num 0) = true ∧
      (about (word 0x2102) (demo true none [])).hostStream = [word 0x2102] ∧
      decode 0x2102 = .ok (.busVoltageV 2) := by
  decide

theorem witness_IdleBlockWaits : State.reset.params.wf = true ∧ State.reset.hostStream = [] := by decide

theorem witness_HostResetGivesResetState :
    steps (about .reset (demo true (some 4) [])) (fun t => t.ready == false && t.lastValid == false) = true := by
  decide

/-- A record for each condition of R8 that fails, and the reference record, which meets them all. -/
def badScale (t : Scale) : State :=
  let p := Params.reference
  { State.reset with params := { p with scale := { p.scale with crit := t } } }

theorem witness_IllFormedParametersAreRefused :
    step (badScale ⟨0, 1, 0⟩) = .refused .illFormedParams ∧ step (badScale ⟨1, 0, 0⟩) = .refused .illFormedParams ∧
      step (badScale ⟨1, 1, 15⟩) = .refused .illFormedParams ∧ step (badScale ⟨1, 2, 14⟩) = .refused .illFormedParams ∧
      (badScale ⟨1, 1, 14⟩).params.wf = true ∧
      warnBase.toNat + (badScale ⟨1, 1, 14⟩).params.chPeriod * ((badScale ⟨1, 1, 14⟩).params.nchan - 1) ≤ 0xFF := by
  have refused : ∀ s : State, s.params.wf = false → step s = .refused .illFormedParams := by
    intro s h
    unfold step
    rw [h]
    rfl
  exact ⟨refused _ (by decide +kernel), refused _ (by decide +kernel), refused _ (by decide +kernel),
    refused _ (by decide +kernel), by decide +kernel, by decide⟩

theorem witness_AdmittedStepGoesOn :
    (par.voltDomain.has (.num 0) = true ∧ VoltDomain.binaryFloat.has .posInf = true) ∧
    steps (about (word 0x2A00) (demo true none [])) (fun _ => true) = true ∧
      steps (about .reset (demo true none [])) (fun _ => true) = true ∧ steps (demo true none []) (fun _ => true) = true := by
  decide

theorem witness_PackMaskEnableResult :
    (demo true none []).params.wf = true ∧ (demo true none []).params.meLayout = MeLayout.reference := by
  decide

theorem witness_MaskEnableRoundTrip :
    MeLayout.reference.wf = true ∧ ({ MeLayout.reference with cvrf := 14, scc1 := 0 } : MeLayout).wf = true := by
  decide

theorem witness_UnpackMaskEnableResult : (demo true none []).params.meLayout = MeLayout.reference := by decide

/-- A result of each sign in each mode (2.2). -/
theorem witness_VoltToRegResult :
    (7 : Byte).toNat = kindNumber .pvLower ∧ 0 ≤ rawOf ⟨9, 1125, 3⟩ (45 / 10) ∧ rawOf ⟨9, 1125, 3⟩ (-95 / 10) < 0 ∧
      steps (about (.command ⟨0x0507, cfgP1, me0, .num (-95 / 10), 0⟩) (demo false none [])) (fun t => t.outReg == 0xA328) = true ∧
      steps (about (.command ⟨0x0507, cfgP1, me0, .num (-95 / 10), 0⟩) (State.tc (demo false none [])))
        (fun t => t.outReg == 0xDCD8) = true := by
  decide +kernel

theorem witness_RegToVoltResult :
    (demo false none []).params.wf = true ∧ (0 : Byte).toNat = kindNumber .shunt ∧ (7 : Byte).toNat = kindNumber .pvLower := by
  decide

theorem witness_NanIsRefusedAndInfinitiesClamp :
    (5 : Byte).toNat = kindNumber .sumLimit ∧ (demo true none []).ready = true ∧
      voltSetter par (.setCritLimitV 3) = some (.crit, 0x0B) ∧ voltSetter par .setPvUpperV = some (.pvUpper, 0x10) := by
  decide

theorem witness_QuantisedVoltageRoundTrip :
    (Scale.mk 10 1250 3).wf = true ∧ -((1250 : Nat) : Int) ≤ -1250 ∧ (1250 : Int) ≤ (1250 : Nat) := by
  decide +kernel

/-- Within the range, above it and below it. -/
theorem witness_VoltageRoundTripWithinOneStep :
    (Scale.mk 10 1250 3).wf = true ∧ (-10 : Rat) ≤ -10 ∧ (-10 : Rat) ≤ 10 ∧ (10 : Rat) < 12 ∧ (-12 : Rat) < -10 ∧
      r2v .signMag ⟨10, 1250, 3⟩ (v2r .signMag ⟨10, 1250, 3⟩ 12) = 10 := by
  decide +kernel

theorem witness_VoltageSaturates : (Scale.mk 10 1250 3).wf = true ∧ (0 : Rat) ≤ 0 ∧ (0 : Rat) ≤ 1 := by decide +kernel

/-- The largest image of each sign, in each mode (2.2). -/
theorem witness_EncoderImagesAreExactly :
    (Scale.mk 10 1250 3).wf = true ∧ v2r .signMag ⟨10, 1250, 3⟩ 12 = 0x2710 ∧
      v2r .signMag ⟨10, 1250, 3⟩ (-12) = 0xA710 ∧ v2r .twos ⟨10, 1250, 3⟩ (-12) = 0xD8F0 := by
  decide +kernel

theorem witness_ImageRoundTrip :
    (Scale.mk 10 1250 3).wf = true ∧ v2r .signMag ⟨10, 1250, 3⟩ (-1) = 0x83E8 ∧ v2r .twos ⟨10, 1250, 3⟩ (-1) = 0xFC18 := by
  decide +kernel

/-- The image `0xC000`, on which the two sign modes agree; its neighbour, on which they do not. -/
theorem witness_DecoderCornerCases :
    (Scale.mk 10 1250 3).wf = true ∧ r2v .signMag ⟨10, 1250, 3⟩ 0xC007 = r2v .twos ⟨10, 1250, 3⟩ 0xC007 ∧
      r2v .signMag ⟨10, 1250, 3⟩ 0xC008 ≠ r2v .twos ⟨10, 1250, 3⟩ 0xC008 ∧ (0xC000 : Word).getLsbD 15 = true ∧
      (0xC000 : Word).toNat / 2 ^ 3 = (0xC007 : Word).toNat / 2 ^ 3 := by
  decide +kernel

/-- Small magnitudes, ordered inputs and a raw value that is not 0. -/
theorem witness_EncoderIsMonotonicAndOdd :
    (Scale.mk 10 1250 3).wf = true ∧ |(1 / 1000 : Rat)| < 10 / 1250 ∧ (1 / 1000 : Rat) ≤ 1 ∧
      rawOf ⟨10, 1250, 3⟩ 1 ≠ 0 := by
  decide +kernel

theorem witness_InvalidArgumentIsExactlyABadArgument :
    Instr.argValid par.nchan (.busVoltageV 4) = false ∧ Instr.argValid par.nchan (.regToVolt 8) = false ∧
      (Instr.argValid par.nchan (.busVoltageV 3) = true ∧
        next (.busVoltageV 3) (demo true none (slow 0 0)) (fun t => t.status != 3) = true) ∧
      (hasChannel (.busVoltageV 4) = true ∧ 4 ≤ (Instr.busVoltageV 4).arg.toNat) ∧ formatN .setConfig = true := by
  decide

theorem witness_NotInitializedWithoutSession :
    (needsSession .setPvLowerV = true ∧ Instr.argValid par.nchan .setPvLowerV = true ∧ (demo false none []).ready = false) ∧
      isCodec .packConfig = true ∧ next .packConfig (demo false none []) (fun _ => true) = true := by
  decide

theorem witness_CodecIgnoresTheSession :
    isCodec (.voltToReg 1) = true ∧ exec (.voltToReg 1) { (demo false none []).float with inV := .nan } = .refused .nanVoltage ∧
      next (.voltToReg 1) (demo false none []) (fun _ => true) = true := by
  exact ⟨by decide, rfl, by decide⟩

theorem witness_ChannelAddressIsBasePlusPeriod :
    warnBase ∈ [shuntBase, busBase, critBase, warnBase] ∧ 1 ≤ (3 : Byte).toNat ∧ (3 : Byte).toNat ≤ 3 ∧
      chanAddr 2 warnBase 3 = 0x0C ∧ chanAddr 2 shuntBase 1 = 0x01 ∧
      (par.wf = true ∧ par.nchan = 3 ∧ par.chPeriod = 2) ∧
      ({ par with chPeriod := 123 } : Params).wf = true ∧ chanAddr 123 warnBase 3 = 0xFE := by
  decide

/-- The five paths of 2.5. -/
theorem witness_ReadSequence :
    (readReg 0x04 (demo true (some 0x04) (fast 0x2E 0xE8))).1 = some 0x2EE8 ∧
      (readReg 0x04 (demo true (some 0x04) [⟨0, 0, 0⟩])).1 = none ∧
      (readReg 0x04 (demo true (some 0x01) [⟨0, 0, 0⟩])).1 = none ∧
      (readReg 0x04 (demo true (some 0x01) [⟨1, 0, 0⟩, ⟨1, 0x2E, 0⟩])).1 = none ∧
      (readReg 0x04 (demo true none (slow 0x2E 0xE0))).1 = some 0x2EE0 := by
  decide

theorem witness_WriteSequence :
    (writeReg 0x00 0x7127 (demo true none acked)).1 = true ∧
      (writeReg 0x00 0x7127 (demo true (some 0x04) [⟨2, 0, 0⟩])).1 = false := by
  decide

/-- Both paths of a getter, for the first and the last row of R56. -/
theorem witness_VoltageGetterResult :
    voltGetter par (.shuntVoltageV 1) = some (.shunt, 0x01) ∧ voltGetter par .getPvLowerV = some (.pvLower, 0x11) ∧
      next (.shuntVoltageV 1) (demo true none (slow 0xBE 0x80)) (shows 0 true (some 0x01) [W [0x01] false 1, R 2 0xBE 0x80]) = true ∧
      next .getPvLowerV (demo true (some 0x11) (fast 0x23 0x28)) (shows 0 true (some 0x11) [R 2 0x23 0x28]) = true := by
  decide

theorem witness_RegisterGetterResult :
    next .getConfig (demo true (some 0x00) (fast 0x71 0x27)) (shows 0 true (some 0x00) [R 2 0x71 0x27]) = true ∧
      next .getMaskEnable (demo true none (slow 0x08 0x01))
        (shows 0 true (some 0x0F) [W [0x0F] false 1, R 2 0x08 0x01]) = true := by
  decide

theorem witness_VoltageSetterResult :
    voltSetter par (.setWarnLimitV 2) = some (.warn, 0x0A) ∧
      next (.setWarnLimitV 2) ((demo true none acked).onV (4 / 100)) (shows 0 true (some 0x0A) [W [0x0A, 0x1F, 0x40] true 3]) = true := by
  decide +kernel

theorem witness_RegisterSetterResult :
    next .setConfig ((demo true none acked).onCfg cfgP1) (shows 0 true (some 0x00) [W [0x00, 0x71, 0x27] true 3]) = true ∧
      next .setMaskEnable ((demo true none acked).onMe meTcf) (shows 0 true (some 0x0F) [W [0x0F, 0x70, 0x02] true 3]) = true := by
  decide

/-- P4, commands 3 and 1, and a short read after a good address phase. -/
theorem witness_GetterStopsAtFailedCall :
    readTarget par (.busVoltageV 2) = some 0x04 ∧
      next (.busVoltageV 2) (demo true (some 0x01) [⟨0, 0, 0⟩]) (shows 1 true none [W [0x04] false 0]) = true ∧
      next (.busVoltageV 2) (demo true (some 0x01) [⟨1, 0, 0⟩, ⟨1, 0x2E, 0⟩])
        (shows 1 true none [W [0x04] false 1, R 1 0x2E 0]) = true ∧
      next (.busVoltageV 2) (demo true (some 0x04) [⟨1, 0x2E, 0⟩]) (shows 1 true none [R 1 0x2E 0]) = true := by
  decide

theorem witness_SetterReportsFailedWrite :
    writeTarget par .setMaskEnable = some 0x0F ∧ setterWord .setMaskEnable (demo true none []) = some 0 ∧
      next .setMaskEnable (demo true none [⟨1, 0, 0⟩]) (shows 1 true none [W [0x0F, 0, 0] true 1]) = true := by
  decide

/-- The exits 1a, 1b, 2, 3, 4 and 5 of 2.6, the last on the fast path (P5). -/
theorem witness_InitExitTable :
    next .init (demo true (some 0x04) [⟨0, 0, 0⟩]) (shows 1 false none [W [0xFF] false 0]) = true ∧
    next .init (demo false none [⟨1, 0, 0⟩, ⟨1, 0x32, 0⟩]) (shows 1 false none [W [0xFF] false 1, R 1 0x32 0]) = true ∧
      next .init (demo true none (slow 0x20 0x32)) (shows 2 false (some 0xFF) [W [0xFF] false 1, R 2 0x20 0x32]) = true ∧
      next .init (demo true (some 0xFF) (fast 0x32 0x20 ++ [⟨0, 0, 0⟩]))
        (shows 1 false none [R 2 0x32 0x20, W [0, 0x80, 0] true 0]) = true ∧
      next .init ((demo true none (slow 0x32 0x20 ++ acked ++ [⟨2, 0, 0⟩])).onCfg cfgP1)
        (shows 1 false none
          [W [0xFF] false 1, R 2 0x32 0x20, W [0, 0x80, 0] true 3, W [0, 0x71, 0x27] true 2]) = true ∧
      next .init ((demo false (some 0xFF) (fast 0x32 0x20 ++ acked ++ acked)).onCfg cfgP1)
        (shows 0 true (some 0x00) [R 2 0x32 0x20, W [0, 0x80, 0] true 3, W [0, 0x71, 0x27] true 3]) = true := by
  decide

/-- One step for each status: a reserved opcode, an invalid channel, no session, a failed call, a wrong vendor, success. -/
theorem witness_StatusPriority :
    steps (about (word 0x3000) (demo false none [])) (fun t => t.status == 3) = true ∧
      steps (about (word 0x2104) (demo false none [])) (fun t => t.status == 3) = true ∧
      steps (about (word 0x2101) (demo false none [])) (fun t => t.status == 4) = true ∧
      steps (about (word 0x2101) (demo true none [⟨0, 0, 0⟩])) (fun t => t.status == 1) = true ∧
      steps (about (word 0x1000) (demo true none (slow 0x12 0x34))) (fun t => t.status == 2) = true ∧
      steps (about (word 0x1100) (demo true none (slow 0x12 0x34))) (fun t => t.status == 0) = true := by
  decide

/-- One command for each status, and for each kind of command that ends `Ok`. -/
theorem witness_StateAfterEachStatus :
    next (.busVoltageV 4) (demo true none []) (fun t => t.status == 3) = true ∧
      next .getConfig (demo false none []) (fun t => t.status == 4) = true ∧
      next .init (demo true none [⟨0, 0, 0⟩]) (fun t => t.status == 1) = true ∧
      next .getConfig (demo true none [⟨0, 0, 0⟩]) (fun t => t.status == 1) = true ∧
      next .init (demo true none (slow 0x12 0x34)) (fun t => t.status == 2) = true ∧
      (next .packConfig (demo true none []) (fun t => t.status == 0) && isCodec .packConfig) = true ∧
      (next .setConfig (demo true none acked) (fun t => t.status == 0) && writeTarget par .setConfig == some 0x00) = true ∧
      next .init (demo true none (slow 0x32 0x20 ++ acked ++ acked)) (fun t => t.status == 0) = true := by
  decide

/-- `READY` set by INIT, cleared by INIT, and cleared by a reset. -/
theorem witness_ReadyChangesOnlyByInitOrReset :
    steps (about (word 0x1000) (demo false none (slow 0x32 0x20 ++ acked ++ acked))) (fun t => t.ready) = true ∧
      steps (about (word 0x1000) (demo true none [⟨0, 0, 0⟩])) (fun t => !t.ready) = true ∧
      steps (about .reset (demo true none [])) (fun t => !t.ready) = true := by
  decide

theorem witness_LastValidClearedOnlyByFailureOrReset :
    steps (about (word 0x1100) (demo true (some 0x00) [⟨0, 0, 0⟩])) (fun t => !t.lastValid) = true ∧
      steps (about .reset (demo true (some 0x00) [])) (fun t => !t.lastValid) = true := by
  decide

/-- Four calls, the last of which failed (P6). -/
theorem witness_CallsAreAppendedAndStopAtFailure :
    steps (about (word 0x1000) (demo true (some 0x04) (slow 0x32 0x20 ++ acked ++ [⟨2, 0, 0⟩])))
      (fun t => t.trace.length == 4 && t.status == 1) = true := by
  decide

/-- Each clause, at each of its lengths. -/
theorem witness_CallsPerCommand :
    next .packConfig (demo true none []) (shows 0 true none []) = true ∧
      next .getConfig (demo true (some 0x00) (fast 0 0)) (fun t => t.status == 0 && t.trace.length == 1) = true ∧
      next .getConfig (demo true none (slow 0 0)) (fun t => t.status == 0 && t.trace.length == 2) = true ∧
      next .setConfig (demo true none acked) (fun t => t.status == 0 && t.trace.length == 1) = true ∧
      next .init (demo true (some 0xFF) (fast 0x32 0x20 ++ acked ++ acked))
        (fun t => t.status == 0 && t.trace.length == 3) = true ∧
      next .init (demo true none (slow 0x32 0x20 ++ acked ++ acked))
        (fun t => t.status == 0 && t.trace.length == 4) = true := by
  decide

theorem witness_CommandWritesOnlyItsRegister :
    (next .getConfig (demo true none (slow 0 0)) (fun _ => true) && writeTarget par .getConfig == none) = true ∧
      next .setConfig (demo true none acked) (fun t => writtenRegs t.trace == [0x00]) = true ∧
      next .setConfig (demo false none acked) (fun t => writtenRegs t.trace == []) = true ∧
      next .init (demo true none (slow 0x32 0x20 ++ [⟨0, 0, 0⟩])) (fun t => writtenRegs t.trace == [0x00]) = true ∧
      next .init (demo true none (slow 0x32 0x20 ++ acked ++ acked))
        (fun t => t.status == 0 && writtenRegs t.trace == [0x00, 0x00]) = true := by
  decide

theorem witness_CommandLeavesOperandsAlone :
    next .init (demo true none (slow 0 0)) (fun _ => true) = true ∧
      steps (about (word 0x1000) (demo true none (slow 0 0))) (fun t => t.devAddr == 0x40) = true := by
  decide

theorem witness_UnwrittenResultPortsAreKept :
    next .setConfig (demo true none acked) (fun t => t.status == 0) = true ∧ voltGetter par .setConfig = none := by
  decide

/-- P2: the same register twice, and another in between. -/
theorem witness_RepeatedReadSkipsTheAddress :
    next (.busVoltageV 2) (demo true none (slow 0x2E 0xE0 ++ fast 0x2E 0xE8)) (fun t =>
      t.status == 0 && next (.busVoltageV 2) t fun u => newCalls t u == [R 2 0x2E 0xE8]) = true ∧
      next (.busVoltageV 2) (demo true none (slow 0x2E 0xE0 ++ slow 0x27 0x10 ++ slow 0x2E 0xE0)) (fun t =>
        next (.shuntVoltageV 1) t fun u => u.status == 0 && next (.busVoltageV 2) u fun v =>
          newCalls u v == [W [0x04] false 1, R 2 0x2E 0xE0]) = true := by
  decide

/-- P3, and GET_CONFIG after INIT. -/
theorem witness_ReadAfterWriteSkipsTheAddress :
    (writeTarget par (.setCritLimitV 3) = some 0x0B ∧ readTarget par (.getCritLimitV 3) = some 0x0B) ∧
      next (.setCritLimitV 3) (demo true none (acked ++ fast 0x3E 0x80)) (fun t =>
        t.status == 0 && next (.getCritLimitV 3) t fun u => newCalls t u == [R 2 0x3E 0x80]) = true ∧
      next .init (demo true none (slow 0x32 0x20 ++ acked ++ acked ++ fast 0 0)) (fun t =>
        t.status == 0 && next .getConfig t fun u => newCalls t u == [R 2 0 0]) = true := by
  decide

/-- A good state in which a register is recorded: the trace shows where the pointer stands. -/
def good : State := { demo true (some 0x04) (fast 0x2E 0xE8) with trace := [W [0x04] false 1, R 2 0x2E 0xE0] }

theorem good_inv : good.Inv := by
  refine ⟨by decide, by decide, rfl, by decide, rfl, rfl, ?_, by decide, fun _ => ⟨by decide, by decide⟩⟩
  intro e he
  simp only [good, List.mem_cons, List.not_mem_nil, or_false] at he
  rcases he with rfl | rfl <;> decide

theorem witness_GetterReadsItsOwnRegister :
    good.Inv ∧ readTarget par (.busVoltageV 2) = some 0x04 ∧ next (.busVoltageV 2) good (fun t => t.status == 0) = true :=
  ⟨good_inv, by decide, by decide⟩

/-- A refused step and one that goes on. -/
theorem witness_LastRegIsNotReadWhileInvalid :
    (demo true none (slow 0 0)).lastValid = false ∧
      step (about (.command ⟨0x2A00, cfgP1, me0, .nan, 0⟩) (demo true none []).float) = .refused .nanVoltage ∧
      steps (about (word 0x1100) (demo true none (slow 0 0))) (fun t => t.lastValid) = true := by
  refine ⟨by decide, ?_, by decide⟩
  have h : (about (.command ⟨0x2A00, cfgP1, me0, .nan, 0⟩) (demo true none []).float).params.wf = true := by decide
  unfold step
  rw [if_pos h]
  rfl

theorem witness_ResetIsAGoodState : par.wf = true ∧ par.sourceMap = true := by decide

theorem witness_StepKeepsGoodStates :
    good.Inv ∧ steps (about (word 0x2102) good) (fun t => t.trace.length == 3) = true :=
  ⟨good_inv, by decide⟩

/-- Channels 0 and 4, next to the valid ones. -/
theorem witness_ReferenceParametersAreTheSpecs :
    validChannel 3 0 = false ∧ validChannel 3 1 = true ∧ validChannel 3 3 = true ∧ validChannel 3 4 = false := by
  decide

/-- A refused command, and one that leaves numbers on the ports. -/
theorem witness_RationalPortsHoldNumbers :
    (par.wf = true ∧ par.voltDomain = .rational) ∧
      step (about (.command ⟨0x1100, cfgP1, me0, .posInf, 0⟩) (demo true none [])) = .refused .notAVoltage ∧
      steps (about (word 0x2104) (demo true none [])) (fun t => t.status == 3) = true := by
  refine ⟨by decide, ?_, by decide⟩
  have h : (about (.command ⟨0x1100, cfgP1, me0, .posInf, 0⟩) (demo true none [])).params.wf = true := by decide
  unfold step
  rw [if_pos h]
  rfl

end Sys2Proof.Tests
end

/-! The parameter record (00_scope.md R7, R8): when a record is admitted, condition by condition; that a step is refused as
`illFormedParams` exactly when its record is not; and the reference instance. -/

namespace Sys2Proof.Machine

/-! ### When a record is admitted -/

/-- A table is admitted if the triple of every kind is (R8); the converse is `scale_wf`. -/
theorem ScaleTable.wf_of_forall {t : ScaleTable} (h : ∀ k : Kind, (t.get k).wf = true) : t.wf = true := by
  simp only [ScaleTable.wf, Bool.and_eq_true]
  exact ⟨⟨⟨⟨⟨⟨⟨h .shunt, h .bus⟩, h .crit⟩, h .warn⟩, h .sum⟩, h .sumLimit⟩, h .pvUpper⟩, h .pvLower⟩

/-- A layout is admitted when no two flags share a position (R34). -/
theorem MeLayout.wf_iff (l : MeLayout) : l.wf = true ↔ Function.Injective l.pos :=
  ⟨layout_injective, fun inj => decide_eq_true (List.Nodup.map inj (by decide : MeFlag.all.Nodup))⟩

/-- A triple that fails one of R8's four conditions is not admitted. -/
theorem Scale.wf_eq_false {t : Scale} (h : ¬(0 < t.fsv) ∨ t.fsc < 1 ∨ 14 < t.shift ∨ 0x7FFF < t.fsc * 2 ^ t.shift) :
    t.wf = false := by
  rw [← Bool.not_eq_true, Scale.wf_iff]
  rintro ⟨fsv, fsc, shift, product⟩
  rcases h with h | h | h | h
  · exact h fsv
  all_goals omega

/-- A record is admitted when its channel addresses fit (R58), its layout is a bijection (R34) and every triple meets R8. -/
theorem Params.wf_iff (p : Params) :
    p.wf = true ↔ warnBase.toNat + p.chPeriod * (p.nchan - 1) ≤ 0xFF ∧ Function.Injective p.meLayout.pos ∧
      ∀ k : Kind, (p.scale.get k).wf = true := by
  have fit : p.channelsFit = true ↔ warnBase.toNat + p.chPeriod * (p.nchan - 1) ≤ 0xFF := decide_eq_true_iff
  have parts : p.wf = true ↔ (p.channelsFit = true ∧ p.meLayout.wf = true) ∧ p.scale.wf = true := by
    simp only [Params.wf, Bool.and_eq_true]
  rw [← fit, ← MeLayout.wf_iff]
  constructor
  · intro hw
    obtain ⟨⟨channels, layout⟩, -⟩ := parts.1 hw
    exact ⟨channels, layout, scale_wf hw⟩
  · rintro ⟨channels, layout, scale⟩
    exact parts.2 ⟨⟨channels, layout⟩, ScaleTable.wf_of_forall scale⟩

/-! ### When a step is refused for its record -/

/-- Issuing a command is never refused for the record: only a value that is none of `VOLT_T` (R36) or a NaN (R150) is. -/
theorem issue_refused {c : HostCommand} {rest : List HostInput} {s : State} {r : Refusal}
    (h : issue c rest s = .refused r) : r = .notAVoltage ∨ r = .nanVoltage := by
  unfold issue at h
  split at h
  · unfold runCommand at h
    split at h
    · exact .inr (exec_refused h)
    · cases h
  · cases h
    exact .inl rfl

/-- A step is refused as `illFormedParams` for a record that is not admitted (R8), and for nothing else. -/
theorem step_illFormedParams_iff (s : State) : step s = .refused .illFormedParams ↔ s.params.wf = false := by
  cases hw : s.params.wf with
  | false => simp [step, hw]
  | true =>
    simp only [Bool.true_eq_false, iff_false]
    intro h
    cases hs : s.hostStream with
    | nil => simp [step, hw, hs] at h
    | cons input rest =>
      cases input with
      | reset => simp [step, hw, hs] at h
      | command c =>
        rw [step_command hw hs] at h
        rcases issue_refused h with h | h <;> cases h

/-! ### Valid channels -/

/-- The channels of an instance with three of them. -/
theorem validChannel_three_iff (ch : Byte) : validChannel 3 ch = true ↔ ch = 1 ∨ ch = 2 ∨ ch = 3 := by
  refine ⟨validChannel_three, ?_⟩
  rintro (rfl | rfl | rfl) <;> decide

/-! ### The statements -/

/-- Settles O10: a step is refused for its record exactly when the record is not admitted, and the conditions listed are
those of `Params.wf_iff`. -/
theorem illFormedParametersAreRefused : Obligations.IllFormedParametersAreRefused := by
  unfold Obligations.IllFormedParametersAreRefused
  refine ⟨fun s k fails => ?_, fun s scale layout channels => ?_⟩
  · have bad : (s.params.scale.get k).wf = false := Scale.wf_eq_false fails
    rw [step_illFormedParams_iff, ← Bool.not_eq_true]
    exact fun hw => Bool.false_ne_true (bad.symm.trans (scale_wf hw k))
  · have admitted : s.params.wf = true :=
      (Params.wf_iff _).2 ⟨channels, layout, fun k => (Scale.wf_iff _).2 (scale k)⟩
    rw [Ne, step_illFormedParams_iff, admitted]
    exact Bool.noConfusion

/-- Settles O59: each value is a field of the reference record, and its three channels are `validChannel_three_iff`. -/
theorem referenceParametersAreTheSpecs : Obligations.ReferenceParametersAreTheSpecs :=
  ⟨rfl, rfl, rfl, rfl, rfl, rfl, rfl, rfl, rfl, rfl, validChannel_three_iff⟩

end Sys2Proof.Machine

/-! The step and the state (10_state.md): what a command leaves alone, that every step keeps the invariant, which result
ports a command keeps, and what the last-register record is good for. -/

namespace Sys2Proof.Machine

/-! ### The step (R22, R27) -/

/-- Settles O5: the step issues the command, which is run since its `in_v` is a value of `VOLT_T`. -/
theorem stepRunsDecodedCommand : Obligations.StepRunsDecodedCommand := by
  intro s c rest i hw hs hd hi
  have decoded : decode (present c rest s).cmd = .ok i := hi
  rw [step_command hw hs, issue_run hd, runCommand, decoded]
  rfl

/-- Settles O6: with an empty stream `step` takes its idle branch. -/
theorem idleBlockWaits : Obligations.IdleBlockWaits := by
  intro s hw hs
  rw [step, if_pos hw, hs]

/-- Settles O9: the reset state carries the reference table, whose two fractions are written with `mkRat`. -/
theorem referenceScaleTableIsTheSpecs : Obligations.ReferenceScaleTableIsTheSpecs := by
  unfold Obligations.ReferenceScaleTableIsTheSpecs
  change ScaleTable.reference = _
  simp only [ScaleTable.reference, Rat.mkRat_eq_div]
  norm_num

/-! ### What a command leaves alone -/

theorem untouched_setReady (s : State) (b : Bool) : Untouched s (s.setReady b) :=
  ⟨rfl, rfl, rfl, rfl, rfl, rfl, rfl, rfl⟩

/-- INIT, whatever its exit, leaves the parameters, `DEV_ADDR`, the operands and the stream alone. -/
theorem InitRun.untouched {s t : State} (run : InitRun s t) : Untouched s t := by
  refine (untouched_setReady s false).trans ?_
  cases run with
  | readFail s1 es read access ends => exact access.untouched.trans ends.untouched
  | vendor id s1 es read access mismatch ends => exact access.untouched.trans ends.untouched
  | firstFail s1 s2 es fs read access first access1 ends =>
    exact (access.trans access1).untouched.trans ends.untouched
  | secondFail s1 s2 s3 es fs gs read access first access1 second access2 ends =>
    exact ((access.trans access1).trans access2).untouched.trans ends.untouched
  | ok s1 s2 s3 es fs gs read access first access1 second access2 ends =>
    exact ((access.trans access1).trans access2).untouched.trans ((untouched_setReady s3 true).trans ends.untouched)

/-- No command touches the parameters, `DEV_ADDR`, its operands or the stream. -/
theorem exec_untouched {i : Instr} {s t : State} (h : exec i s = .next t) : Untouched s t := by
  cases exec_run h with
  | badArgument wf ends => exact ends.untouched
  | noSession wf needs ready ends => exact ends.untouched
  | codec wf isC ends => exact ends.untouched
  | get a r s1 es target ready read access ends => exact access.untouched.trans ends.untouched
  | set a w b s1 es target ready write access ends => exact access.untouched.trans ends.untouched
  | init isInit run => exact run.untouched

/-- Settles O51: a command touches neither, nor does presenting one; and a reset loads `DEV_ADDR` with the parameter it
already holds in a good state. -/
theorem commandLeavesOperandsAlone : Obligations.CommandLeavesOperandsAlone := by
  refine ⟨fun i s t => exec_untouched, fun s t inv h => ?_⟩
  rcases (step_cases h).2 with ⟨-, rfl⟩ | ⟨rest, -, rfl⟩ | ⟨c, rest, -, -, ⟨e, -, rfl⟩ | ⟨i, -, hx⟩⟩
  · exact ⟨rfl, rfl⟩
  · exact ⟨rfl, inv.devAddr.symm⟩
  · exact ⟨rfl, rfl⟩
  · exact ⟨(exec_untouched hx).params, (exec_untouched hx).devAddr⟩

/-! ### The invariant -/

/-- The invariant does not look at `READY`. -/
theorem inv_setReady {s : State} (h : s.Inv) (b : Bool) : (s.setReady b).Inv :=
  inv_congr h rfl rfl h.status h.inV id rfl rfl rfl

/-- In a good state `ID_REG` is a register of the map. -/
theorem State.Inv.mapped_idReg {s : State} (h : s.Inv) : mapped s.params.idReg = true := by
  obtain ⟨hid, -, -⟩ := (sourceMap_iff s.params).1 h.map
  rw [hid]
  rfl

/-- Every exit of INIT keeps the invariant: it reads `ID_REG` and writes the Configuration register. -/
theorem InitRun.inv {s t : State} (h : s.Inv) (run : InitRun s t) : t.Inv := by
  have start : (s.setReady false).Inv := inv_setReady h false
  have conf : writable configReg = true := rfl
  cases run with
  | readFail s1 es read access ends => exact inv_ends (inv_read start h.mapped_idReg read access) ends
  | vendor id s1 es read access mismatch ends => exact inv_ends (inv_read start h.mapped_idReg read access) ends
  | firstFail s1 s2 es fs read access first access1 ends =>
    have inv1 := inv_read start h.mapped_idReg read access
    exact inv_ends (inv_write inv1 conf first access1) ends
  | secondFail s1 s2 s3 es fs gs read access first access1 second access2 ends =>
    have inv1 := inv_read start h.mapped_idReg read access
    have inv2 := inv_write inv1 conf first access1
    exact inv_ends (inv_write inv2 conf second access2) ends
  | ok s1 s2 s3 es fs gs read access first access1 second access2 ends =>
    have inv1 := inv_read start h.mapped_idReg read access
    have inv2 := inv_write inv1 conf first access1
    exact inv_ends (inv_setReady (inv_write inv2 conf second access2) true) ends

/-- Every command keeps the invariant: a getter reads a mapped register, and a setter writes a writable one. -/
theorem exec_keepsInv {i : Instr} {s t : State} (inv : s.Inv) (h : exec i s = .next t) : t.Inv := by
  cases exec_run h with
  | badArgument wf ends => exact inv_ends inv ends
  | noSession wf needs ready ends => exact inv_ends inv ends
  | codec wf isC ends => exact inv_ends inv ends
  | get a r s1 es target ready read access ends =>
    exact inv_ends (inv_read inv (mapped_of_readTarget inv.map target) read access) ends
  | set a w b s1 es target ready write access ends =>
    exact inv_ends (inv_write inv (writable_of_writeTarget inv.map target) write access) ends
  | init isInit run => exact run.inv inv

/-- A reset keeps the invariant: `LAST_VALID` is 0 after it. -/
theorem inv_blockReset {s : State} (h : s.Inv) : (blockReset s).Inv where
  params := h.params
  map := h.map
  devAddr := rfl
  status := h.status
  inV := h.inV
  outV := has_anyVolt _ _
  legal := by rw [blockReset_trace, blockReset_devAddr, blockReset_params, ← h.devAddr]; exact h.legal
  addressed := h.addressed
  lastReg := nofun

/-- Settles O58: a step is idle, a reset, or a command on ports that hold a value of `VOLT_T`, and each keeps the
invariant. -/
theorem stepKeepsGoodStates : Obligations.StepKeepsGoodStates := by
  intro s t inv h
  have presented {c : HostCommand} (rest : List HostInput) (hd : s.params.voltDomain.has c.inV = true) :
      (present c rest s).Inv := inv_congr inv rfl rfl inv.status hd id rfl rfl rfl
  rcases (step_cases h).2 with ⟨-, rfl⟩ | ⟨rest, -, rfl⟩ | ⟨c, rest, -, hd, ⟨e, -, rfl⟩ | ⟨i, -, hx⟩⟩
  · exact inv
  · exact inv_blockReset (inv_congr inv rfl rfl inv.status inv.inV id rfl rfl rfl)
  · exact inv_ends (presented rest hd) (ends_raise _ _)
  · exact exec_keepsInv (presented rest hd) hx

/-! ### The retained pointer at a getter's data read -/

/-- A getter that ended `Ok` is one `ReadReg` of its register that delivered an image. -/
theorem exec_getter_ok {i : Instr} {a : RegAddr} {s t : State} (target : readTarget s.params i = some a)
    (h : exec i s = .next t) (ok : t.status = 0) :
    ∃ w s1 es, ReadPath s a (some w) s1 es ∧ Access s s1 es ∧ Ends s1 t .ok := by
  have kinds := target_kinds s.params i
  rw [target] at kinds
  cases exec_run h with
  | badArgument wf ends => exact absurd (ends.status.symm.trans ok) (by decide)
  | noSession wf needs ready ends => exact absurd (ends.status.symm.trans ok) (by decide)
  | codec wf isC ends => exact nomatch (kinds.1 isC).1
  | get b r s1 es target' ready read access ends =>
    obtain rfl : a = b := Option.some.inj (target.symm.trans target')
    cases r with
    | none => exact absurd (ends.status.symm.trans ok) (by decide)
    | some w => exact ⟨w, s1, es, read, access, ends⟩
  | set b w d s1 es target' ready write access ends => exact nomatch target'.symm.trans (kinds.2.1 rfl).1
  | init isInit run => exact absurd isInit (kinds.2.1 rfl).2.2

/-- Settles O55: on the fast path the pointer stands where `LAST_REG` says, and on the slow path the address phase has just
set it. -/
theorem getterReadsItsOwnRegister : Obligations.GetterReadsItsOwnRegister := by
  intro i a s t inv target h ok
  obtain ⟨w, s1, es, read, access, ends⟩ := exec_getter_ok target h ok
  have trace : t.trace = s.trace ++ es := ends.session.trace.trans access.trace
  cases read with
  | fastOk _ hit n last reg =>
    obtain ⟨valid, rfl⟩ := (hits_iff s a).1 hit
    rw [trace, List.dropLast_concat]
    exact ⟨_, _, _, rfl, (inv.lastReg valid).2⟩
  | slowOk _ miss n m last reg =>
    rw [List.append_cons] at trace
    rw [trace, List.dropLast_concat, devicePointer_append]
    exact ⟨_, _, _, rfl, by simp [n]⟩

/-! ### The result ports -/

/-- The four result ports hold what they held. -/
structure ResultsKept (s t : State) : Prop where
  outCfg : t.outCfg = s.outCfg
  outMe  : t.outMe = s.outMe
  outV   : t.outV = s.outV
  outReg : t.outReg = s.outReg

theorem Access.resultsKept {s t : State} {es : List Event} (h : Access s t es) : ResultsKept s t :=
  ⟨h.outCfg, h.outMe, h.outV, h.outReg⟩

theorem ResultsKept.trans {s t u : State} (h : ResultsKept s t) (h' : ResultsKept t u) : ResultsKept s u :=
  ⟨h'.outCfg.trans h.outCfg, h'.outMe.trans h.outMe, h'.outV.trans h.outV, h'.outReg.trans h.outReg⟩

theorem resultsKept_finish (s : State) : ResultsKept s (finish s) := ⟨rfl, rfl, rfl, rfl⟩

theorem resultsKept_readReg {s s1 : State} {a : RegAddr} {r : Option Word} (h : readReg a s = (r, s1)) :
    ResultsKept s s1 := by
  obtain ⟨es, -, access⟩ := readReg_cases s a
  rw [h] at access
  exact access.resultsKept

theorem resultsKept_writeReg {s s1 : State} {a : RegAddr} {w : Word} {b : Bool} (h : writeReg a w s = (b, s1)) :
    ResultsKept s s1 := by
  obtain ⟨es, -, access⟩ := writeReg_cases s a w
  rw [h] at access
  exact access.resultsKept

/-- A command that raised an error did not end `Ok`. -/
theorem not_ok_of_raise {e : Status} {s : State} (ok : (raise e s).status = 0) (he : e ≠ .ok := by decide) : False := by
  rw [raise_status] at ok
  revert ok he
  cases e <;> decide

/-- A register getter that ended `Ok` changes the result ports by delivering its image, and in no other way. -/
theorem getReg_ok {s : State} {a : RegAddr} {deliver : Word → State → State} (ok : (getReg a deliver s).status = 0) :
    ∃ r s1, ResultsKept s s1 ∧ getReg a deliver s = finish (deliver r s1) := by
  cases hr : s.ready with
  | false =>
    rw [getReg, hr] at ok
    exact (not_ok_of_raise ok).elim
  | true =>
    rcases hq : readReg a s with ⟨_ | r, s1⟩
    · rw [getReg_failed hr hq] at ok
      exact (not_ok_of_raise ok).elim
    · exact ⟨r, s1, resultsKept_readReg hq, getReg_ready hr hq⟩

/-- A register setter that ended `Ok` keeps the result ports. -/
theorem setReg_ok {s : State} {a : RegAddr} {w : Word} (ok : (setReg a w s).status = 0) :
    ResultsKept s (setReg a w s) := by
  cases hr : s.ready with
  | false =>
    rw [setReg, hr] at ok
    exact (not_ok_of_raise ok).elim
  | true =>
    rcases hq : writeReg a w s with ⟨_ | _, s1⟩
    · rw [setReg_failed hr hq] at ok
      exact (not_ok_of_raise ok).elim
    · rw [setReg_ready hr hq]
      exact (resultsKept_writeReg hq).trans (resultsKept_finish s1)

/-- A voltage setter that ended `Ok` keeps the result ports. -/
theorem setV_ok {s t : State} {k : Kind} {a : RegAddr} (h : setV k a s = .next t) (ok : t.status = 0) :
    ResultsKept s t := by
  unfold setV at h
  split at h
  · split at h
    · cases h
    · cases h
      exact setReg_ok ok
  · cases h
    exact (not_ok_of_raise ok).elim

/-- The writes of an INIT that ended `Ok` keep the result ports. -/
theorem initWrites_ok {s : State} (ok : (initWrites s).status = 0) : ResultsKept s (initWrites s) := by
  revert ok
  unfold initWrites
  rcases hq : writeReg configReg s.params.initResetWord s with ⟨_ | _, s1⟩
  · exact fun ok => (not_ok_of_raise ok).elim
  · rcases hq' : writeReg configReg (initConfigWord s.inCfg) s1 with ⟨_ | _, s2⟩
    · simp only [hq']
      exact fun ok => (not_ok_of_raise ok).elim
    · simp only [hq']
      have delivered : ResultsKept s2 (finish (s2.setReady true)) := ⟨rfl, rfl, rfl, rfl⟩
      exact fun _ => ((resultsKept_writeReg hq).trans (resultsKept_writeReg hq')).trans delivered

/-- An INIT that ended `Ok` keeps the result ports. -/
theorem initSession_ok {s : State} (ok : (initSession s).status = 0) : ResultsKept s (initSession s) := by
  have cleared : ResultsKept s (s.setReady false) := ⟨rfl, rfl, rfl, rfl⟩
  revert ok
  unfold initSession
  rcases hq : readReg s.params.idReg (s.setReady false) with ⟨_ | id, s1⟩
  · exact fun ok => (not_ok_of_raise ok).elim
  · dsimp only
    split
    · exact fun ok => (cleared.trans (resultsKept_readReg hq)).trans (initWrites_ok ok)
    · exact fun ok => (not_ok_of_raise ok).elim

/-- What a command that ended `Ok` did to the result ports: it wrote none of them, or the one that is its own (R27). -/
inductive ResultWritten (i : Instr) (s t : State) : Prop where
  | nothing (kept : ResultsKept s t)
  | cfg (c : DeviceConfig) (own : i = .unpackConfig ∨ i = .getConfig) (kept : ResultsKept { s with outCfg := c } t)
  | me (m : MaskEnable) (own : i = .unpackMaskEnable ∨ i = .getMaskEnable) (kept : ResultsKept { s with outMe := m } t)
  | volt (v : Volt) (own : (∃ kind, i = .regToVolt kind) ∨ voltGetter s.params i ≠ none)
      (kept : ResultsKept { s with outV := v } t)
  | reg (w : Word) (own : i = .packConfig ∨ i = .packMaskEnable ∨ ∃ kind, i = .voltToReg kind)
      (kept : ResultsKept { s with outReg := w } t)

/-- A codec operation writes the port of its result. -/
theorem codec_resultWritten {i : Instr} {s t : State} (isC : isCodec i = true) (h : exec i s = .next t)
    (ok : t.status = 0) : ResultWritten i s t := by
  cases i
  case packConfig => cases h; exact .reg _ (.inl rfl) (resultsKept_finish _)
  case unpackConfig => cases h; exact .cfg _ (.inl rfl) (resultsKept_finish _)
  case packMaskEnable => cases h; exact .reg _ (.inr (.inl rfl)) (resultsKept_finish _)
  case unpackMaskEnable => cases h; exact .me _ (.inl rfl) (resultsKept_finish _)
  case voltToReg kind =>
    simp only [exec, execVoltToReg] at h
    split at h
    · cases h
      exact (not_ok_of_raise ok).elim
    · split at h
      · cases h
      · cases h
        exact .reg _ (.inr (.inr ⟨kind, rfl⟩)) (resultsKept_finish _)
  case regToVolt kind =>
    simp only [exec, execRegToVolt] at h
    split at h
    · cases h
      exact (not_ok_of_raise ok).elim
    · cases h
      exact .volt _ (.inl ⟨kind, rfl⟩) (resultsKept_finish _)
  all_goals exact absurd isC (by simp [isCodec, Instr.op])

/-- A getter delivers its image on the port of its result. -/
theorem getter_resultWritten {i : Instr} {a : RegAddr} {s t : State} (target : readTarget s.params i = some a)
    (h : exec i s = .next t) (ok : t.status = 0) : ResultWritten i s t := by
  cases row : voltGetter s.params i with
  | some ka =>
    rw [exec_voltGetter row] at h
    cases h
    obtain ⟨r, s1, k, e⟩ := getReg_ok ok
    exact .volt (decodeVolt s1.params ka.1 r) (.inr (row ▸ nofun))
      (by rw [getV, e]; exact ⟨k.outCfg, k.outMe, rfl, k.outReg⟩)
  | none =>
    cases i
    case getConfig =>
      cases h
      obtain ⟨r, s1, k, e⟩ := getReg_ok ok
      exact .cfg (unpackConfig r) (.inr rfl) (by rw [e]; exact ⟨rfl, k.outMe, k.outV, k.outReg⟩)
    case getMaskEnable =>
      cases h
      obtain ⟨r, s1, k, e⟩ := getReg_ok ok
      exact .me (unpackMaskEnable s1.params.meLayout r) (.inr rfl) (by rw [e]; exact ⟨k.outCfg, rfl, k.outV, k.outReg⟩)
    all_goals simp [readTarget, row] at target

/-- A setter writes no result port. -/
theorem setter_resultsKept {i : Instr} {a : RegAddr} {s t : State} (target : writeTarget s.params i = some a)
    (h : exec i s = .next t) (ok : t.status = 0) : ResultsKept s t := by
  cases row : voltSetter s.params i with
  | some ka =>
    rw [exec_voltSetter row] at h
    exact setV_ok h ok
  | none =>
    cases i
    case setConfig => cases h; exact setReg_ok ok
    case setMaskEnable => cases h; exact setReg_ok ok
    all_goals simp [writeTarget, row] at target

/-- A command that ended `Ok` wrote at most the result port that is its own. -/
theorem exec_resultWritten {i : Instr} {s t : State} (h : exec i s = .next t) (ok : t.status = 0) :
    ResultWritten i s t := by
  cases exec_run h with
  | badArgument wf ends => exact absurd (ends.status.symm.trans ok) (by decide)
  | noSession wf needs ready ends => exact absurd (ends.status.symm.trans ok) (by decide)
  | codec wf isC ends => exact codec_resultWritten isC h ok
  | get a r s1 es target ready read access ends => exact getter_resultWritten target h ok
  | set a w b s1 es target ready write access ends => exact .nothing (setter_resultsKept target h ok)
  | init isInit run =>
    subst isInit
    cases h
    exact .nothing (initSession_ok ok)

/-- Settles O52: a port was written only by a command whose own port it is. -/
theorem unwrittenResultPortsAreKept : Obligations.UnwrittenResultPortsAreKept := by
  intro i s t h ok
  cases exec_resultWritten h ok with
  | nothing k => exact ⟨fun _ _ => k.outCfg, fun _ _ => k.outMe, fun _ _ => k.outV, fun _ _ _ => k.outReg⟩
  | cfg c own k =>
    exact ⟨fun h1 h2 => (own.elim h1 h2).elim, fun _ _ => k.outMe, fun _ _ => k.outV, fun _ _ _ => k.outReg⟩
  | me m own k =>
    exact ⟨fun _ _ => k.outCfg, fun h1 h2 => (own.elim h1 h2).elim, fun _ _ => k.outV, fun _ _ _ => k.outReg⟩
  | volt v own k =>
    refine ⟨fun _ _ => k.outCfg, fun _ _ => k.outMe, fun h1 h2 => ?_, fun _ _ _ => k.outReg⟩
    rcases own with ⟨kind, rfl⟩ | row
    · exact absurd rfl (h1 kind)
    · exact absurd h2 row
  | reg w own k =>
    refine ⟨fun _ _ => k.outCfg, fun _ _ => k.outMe, fun _ _ => k.outV, fun h1 h2 h3 => ?_⟩
    rcases own with rfl | rfl | ⟨kind, rfl⟩
    · exact absurd rfl h1
    · exact absurd rfl h2
    · exact absurd rfl (h3 kind)

/-! ### Voltage ports (R36, R150) -/

/-- A step leaves values of `VOLT_T` on the voltage ports, if such values were there. -/
theorem step_keepsVolts {s t : State} (h : step s = .next t) (hi : s.params.voltDomain.has s.inV = true)
    (ho : s.params.voltDomain.has s.outV = true) :
    s.params.voltDomain.has t.inV = true ∧ s.params.voltDomain.has t.outV = true := by
  rcases (step_cases h).2 with ⟨-, rfl⟩ | ⟨rest, -, rfl⟩ | ⟨c, rest, -, hd, ⟨e, -, rfl⟩ | ⟨i, -, hx⟩⟩
  · exact ⟨hi, ho⟩
  · exact ⟨hi, has_anyVolt _ _⟩
  · exact ⟨hd, has_anyVolt _ _⟩
  · have kept : KeepsVolt (present c rest s) t := exec_keepsVolt hx
    rw [(exec_untouched hx).inV]
    exact ⟨hd, kept ho⟩

/-- With a number or an infinity on `in_v` a command is never refused: a reserved opcode ends, too. -/
theorem runCommand_next {s : State} (h : s.inV ≠ .nan) : ∃ t, runCommand s = .next t := by
  unfold runCommand
  split
  · exact exec_next h
  · exact ⟨_, rfl⟩

/-- With `VOLT_T` the rationals no command is refused for a NaN: one that presents a NaN is not run. -/
theorem issue_ne_nanVoltage {s : State} (hr : s.params.voltDomain = .rational) (c : HostCommand)
    (rest : List HostInput) : issue c rest s ≠ .refused .nanVoltage := by
  unfold issue
  split
  · rename_i hd
    rw [hr, has_rational] at hd
    obtain ⟨q, hq⟩ := hd
    have number : (present c rest s).inV ≠ .nan := by simp [hq]
    obtain ⟨t, ht⟩ := runCommand_next number
    rw [ht]
    nofun
  · nofun

theorem step_ne_nanVoltage {s : State} (hr : s.params.voltDomain = .rational) : step s ≠ .refused .nanVoltage := by
  unfold step
  split
  · split
    · nofun
    · nofun
    · exact issue_ne_nanVoltage hr _ _
  · nofun

/-- Settles O60: with the rationals, to be a value of `VOLT_T` is to be a number. -/
theorem rationalPortsHoldNumbers : Obligations.RationalPortsHoldNumbers := by
  intro s hw hr
  refine ⟨step_ne_nanVoltage hr, fun c rest hs noNumber => ?_, fun t h hi ho => ?_⟩
  · have noVolt : ¬ s.params.voltDomain.has c.inV = true := by
      rw [hr, has_rational]
      exact fun ⟨q, hq⟩ => noNumber q hq
    rw [step_command hw hs, issue, if_neg noVolt]
  · have kept := step_keepsVolts h
    rw [hr] at kept
    simp only [has_rational] at kept
    exact kept hi ho

/-! ### `LAST_REG` while `LAST_VALID = 0` (R21) -/

/-- The two states differ in `LAST_REG` at most, and not while `LAST_VALID = 1`: what the block may read is the same. -/
def SameReadable (s t : State) : Prop := ∃ b, t = { s with lastReg := b } ∧ (s.lastValid = true → b = s.lastReg)

/-- The two answers of an access carry one result, and states the block cannot tell apart. -/
inductive SameResult {α : Type} : α × State → α × State → Prop where
  | mk (r : α) {s t : State} (same : SameReadable s t) : SameResult (r, s) (r, t)

/-- The two outcomes are refusals for one reason, or next states the block cannot tell apart. -/
inductive SameOutcome : Host.Outcome State Fault Refusal → Host.Outcome State Fault Refusal → Prop where
  | next {t u : State} (same : SameReadable t u) : SameOutcome (.next t) (.next u)
  | refused (r : Refusal) : SameOutcome (.refused r) (.refused r)

theorem SameOutcome.of_next {t : State} {o : Host.Outcome State Fault Refusal} (h : SameOutcome (.next t) o) :
    ∃ u, o = .next u ∧ SameReadable t u := by
  cases h with
  | next same => exact ⟨_, rfl, same⟩

theorem SameOutcome.of_refused {r : Refusal} {o : Host.Outcome State Fault Refusal} (h : SameOutcome (.refused r) o) :
    o = .refused r := by
  cases h
  rfl

namespace SameReadable

variable {s t : State}

theorem refl (s : State) : SameReadable s s := ⟨s.lastReg, rfl, fun _ => rfl⟩

theorem params (h : SameReadable s t) : t.params = s.params := by obtain ⟨b, rfl, -⟩ := h; rfl

theorem ready (h : SameReadable s t) : t.ready = s.ready := by obtain ⟨b, rfl, -⟩ := h; rfl

theorem inV (h : SameReadable s t) : t.inV = s.inV := by obtain ⟨b, rfl, -⟩ := h; rfl

theorem inCfg (h : SameReadable s t) : t.inCfg = s.inCfg := by obtain ⟨b, rfl, -⟩ := h; rfl

theorem cmd (h : SameReadable s t) : t.cmd = s.cmd := by obtain ⟨b, rfl, -⟩ := h; rfl

theorem hostStream (h : SameReadable s t) : t.hostStream = s.hostStream := by obtain ⟨b, rfl, -⟩ := h; rfl

theorem answer (h : SameReadable s t) (k : Nat) : t.answer k = s.answer k := by obtain ⟨b, rfl, -⟩ := h; rfl

/-- The fast-path test reads `LAST_REG` only while `LAST_VALID = 1`. -/
theorem hits (h : SameReadable s t) (a : RegAddr) : t.hits a = s.hits a := by
  obtain ⟨b, rfl, valid⟩ := h
  rcases Bool.eq_false_or_eq_true s.lastValid with hv | hv
  · obtain rfl := valid hv
    rfl
  · simp [State.hits, hv]

/-! #### The named updates -/

theorem raise (h : SameReadable s t) (e : Status) : SameReadable (raise e s) (raise e t) := by
  obtain ⟨b, rfl, valid⟩ := h; exact ⟨b, rfl, valid⟩

theorem finish (h : SameReadable s t) : SameReadable (finish s) (finish t) := by
  obtain ⟨b, rfl, valid⟩ := h; exact ⟨b, rfl, valid⟩

theorem setReady (h : SameReadable s t) (r : Bool) : SameReadable (s.setReady r) (t.setReady r) := by
  obtain ⟨b, rfl, valid⟩ := h; exact ⟨b, rfl, valid⟩

theorem tWrite (h : SameReadable s t) (bytes : List Byte) (stop : Bool) :
    SameReadable (tWrite bytes stop s) (tWrite bytes stop t) := by
  obtain ⟨b, rfl, valid⟩ := h; exact ⟨b, rfl, valid⟩

theorem tRead (h : SameReadable s t) (stop : Bool) : SameReadable (tRead stop s) (tRead stop t) := by
  obtain ⟨b, rfl, valid⟩ := h; exact ⟨b, rfl, valid⟩

theorem setLast (h : SameReadable s t) (a : RegAddr) : SameReadable (s.setLast a) (t.setLast a) := by
  obtain ⟨b, rfl, -⟩ := h; exact .refl _

theorem invalidateLast (h : SameReadable s t) : SameReadable s.invalidateLast t.invalidateLast := by
  obtain ⟨b, rfl, -⟩ := h; exact ⟨b, rfl, nofun⟩

theorem present (h : SameReadable s t) (c : HostCommand) (rest : List HostInput) :
    SameReadable (present c rest s) (present c rest t) := by
  obtain ⟨b, rfl, valid⟩ := h; exact ⟨b, rfl, valid⟩

/-! #### The shared operations -/

theorem dataPhase (h : SameReadable s t) (a : RegAddr) : SameResult (dataPhase a s) (dataPhase a t) := by
  have read := h.tRead s.params.stopAfterData
  unfold Machine.dataPhase
  rw [h.answer, h.params]
  split
  · exact .mk _ (read.setLast a)
  · exact .mk _ read.invalidateLast

theorem readReg (h : SameReadable s t) (a : RegAddr) : SameResult (readReg a s) (readReg a t) := by
  have addressed := h.tWrite [a] false
  unfold Machine.readReg
  rw [h.hits, h.answer]
  split
  · exact h.dataPhase a
  · split
    · exact addressed.dataPhase a
    · exact .mk _ addressed.invalidateLast

theorem writeReg (h : SameReadable s t) (a : RegAddr) (v : Word) : SameResult (writeReg a v s) (writeReg a v t) := by
  have written := h.tWrite [a, hiByte v, loByte v] s.params.stopAfterData
  unfold Machine.writeReg
  rw [h.answer, h.params]
  split
  · exact .mk _ (written.setLast a)
  · exact .mk _ written.invalidateLast

theorem getReg (h : SameReadable s t) (a : RegAddr) {deliver : Word → State → State}
    (hd : ∀ r {u v}, SameReadable u v → SameReadable (deliver r u) (deliver r v)) :
    SameReadable (getReg a deliver s) (getReg a deliver t) := by
  have read := h.readReg a
  unfold Machine.getReg
  rw [h.ready]
  split
  · generalize Machine.readReg a s = x, Machine.readReg a t = y at read ⊢
    obtain ⟨_ | r, after⟩ := read
    · exact after.raise _
    · exact (hd r after).finish
  · exact h.raise _

theorem setReg (h : SameReadable s t) (a : RegAddr) (w : Word) : SameReadable (setReg a w s) (setReg a w t) := by
  have written := h.writeReg a w
  unfold Machine.setReg
  rw [h.ready]
  split
  · generalize Machine.writeReg a w s = x, Machine.writeReg a w t = y at written ⊢
    obtain ⟨_ | _, after⟩ := written
    · exact after.raise _
    · exact after.finish
  · exact h.raise _

theorem initWrites (h : SameReadable s t) : SameReadable (initWrites s) (initWrites t) := by
  have first := h.writeReg configReg s.params.initResetWord
  unfold Machine.initWrites
  rw [h.params, h.inCfg]
  generalize Machine.writeReg configReg _ s = x, Machine.writeReg configReg _ t = y at first ⊢
  cases first with
  | @mk written s1 t1 after =>
    cases written with
    | false => exact after.raise _
    | true =>
      have second := after.writeReg configReg (initConfigWord s.inCfg)
      dsimp only
      generalize Machine.writeReg configReg _ s1 = x, Machine.writeReg configReg _ t1 = y at second ⊢
      obtain ⟨_ | _, after2⟩ := second
      · exact after2.raise _
      · exact (after2.setReady true).finish

theorem initSession (h : SameReadable s t) : SameReadable (initSession s) (initSession t) := by
  have read := (h.setReady false).readReg s.params.idReg
  unfold Machine.initSession
  rw [h.params]
  generalize Machine.readReg _ (s.setReady false) = x, Machine.readReg _ (t.setReady false) = y at read ⊢
  obtain ⟨_ | id, after⟩ := read
  · exact after.raise _
  · dsimp only
    split
    · exact after.initWrites
    · exact after.raise _

theorem getV (h : SameReadable s t) (k : Kind) (a : RegAddr) : SameReadable (getV k a s) (getV k a t) :=
  h.getReg a fun _ _ _ ⟨b, e, valid⟩ => ⟨b, by rw [e], valid⟩

theorem setV (h : SameReadable s t) (k : Kind) (a : RegAddr) : SameOutcome (setV k a s) (setV k a t) := by
  unfold Machine.setV
  rw [h.ready, h.params, h.inV]
  split
  · split
    · exact .refused _
    · exact .next (h.setReg a _)
  · exact .next (h.raise _)

theorem getChannelV (h : SameReadable s t) (k : Kind) (base : RegAddr) (ch : Byte) :
    SameOutcome (getChannelV k base ch s) (getChannelV k base ch t) := by
  unfold Machine.getChannelV
  rw [h.params]
  split
  · exact .next (h.getV k _)
  · exact .next (h.raise _)

theorem setChannelV (h : SameReadable s t) (k : Kind) (base : RegAddr) (ch : Byte) :
    SameOutcome (setChannelV k base ch s) (setChannelV k base ch t) := by
  unfold Machine.setChannelV
  rw [h.params]
  split
  · exact h.setV k _
  · exact .next (h.raise _)

/-! #### Commands and steps -/

/-- Every command makes of the two states outcomes the block cannot tell apart. -/
theorem exec (h : SameReadable s t) (i : Instr) : SameOutcome (exec i s) (exec i t) := by
  cases i with
  | packConfig => obtain ⟨b, rfl, valid⟩ := h; exact .next ⟨b, rfl, valid⟩
  | unpackConfig => obtain ⟨b, rfl, valid⟩ := h; exact .next ⟨b, rfl, valid⟩
  | packMaskEnable => obtain ⟨b, rfl, valid⟩ := h; exact .next ⟨b, rfl, valid⟩
  | unpackMaskEnable => obtain ⟨b, rfl, valid⟩ := h; exact .next ⟨b, rfl, valid⟩
  | voltToReg kind =>
    simp only [Machine.exec, execVoltToReg, h.params, h.inV]
    split
    · exact .next (h.raise _)
    · split
      · exact .refused _
      · obtain ⟨b, rfl, valid⟩ := h; exact .next ⟨b, rfl, valid⟩
  | regToVolt kind =>
    simp only [Machine.exec, execRegToVolt]
    split
    · exact .next (h.raise _)
    · obtain ⟨b, rfl, valid⟩ := h; exact .next ⟨b, rfl, valid⟩
  | init => exact .next h.initSession
  | getConfig => exact .next (h.getReg _ fun _ _ _ ⟨b, e, valid⟩ => ⟨b, by rw [e], valid⟩)
  | setConfig => obtain ⟨b, rfl, valid⟩ := h; exact .next (setReg ⟨b, rfl, valid⟩ _ _)
  | getMaskEnable => exact .next (h.getReg _ fun _ _ _ ⟨b, e, valid⟩ => ⟨b, by rw [e], valid⟩)
  | setMaskEnable => obtain ⟨b, rfl, valid⟩ := h; exact .next (setReg ⟨b, rfl, valid⟩ _ _)
  | shuntVoltageV ch => exact h.getChannelV _ _ ch
  | busVoltageV ch => exact h.getChannelV _ _ ch
  | getCritLimitV ch => exact h.getChannelV _ _ ch
  | setCritLimitV ch => exact h.setChannelV _ _ ch
  | getWarnLimitV ch => exact h.getChannelV _ _ ch
  | setWarnLimitV ch => exact h.setChannelV _ _ ch
  | shuntSumV => exact .next (h.getV _ _)
  | getSumLimitV => exact .next (h.getV _ _)
  | setSumLimitV => exact h.setV _ _
  | getPvUpperV => exact .next (h.getV _ _)
  | setPvUpperV => exact h.setV _ _
  | getPvLowerV => exact .next (h.getV _ _)
  | setPvLowerV => exact h.setV _ _

theorem issue (h : SameReadable s t) (c : HostCommand) (rest : List HostInput) :
    SameOutcome (issue c rest s) (issue c rest t) := by
  have presented := h.present c rest
  unfold Machine.issue runCommand
  rw [h.params, presented.cmd]
  split
  · split
    · exact presented.exec _
    · exact .next (presented.raise _)
  · exact .refused _

/-- Every step makes of the two states outcomes the block cannot tell apart; a reset makes the same state of both. -/
theorem step (h : SameReadable s t) : SameOutcome (step s) (step t) := by
  unfold Machine.step
  rw [h.params, h.hostStream]
  split
  · split
    · exact .next h
    · obtain ⟨b, rfl, -⟩ := h; exact .next (.refl _)
    · exact h.issue _ _
  · exact .refused _

end SameReadable

/-- Settles O56: while `LAST_VALID = 0` the two states differ in nothing the block may read, so their steps do not
either. -/
theorem lastRegIsNotReadWhileInvalid : Obligations.LastRegIsNotReadWhileInvalid := by
  intro s a invalid
  have start : SameReadable s { s with lastReg := a } := ⟨a, rfl, fun valid => nomatch invalid.symm.trans valid⟩
  have same := start.step
  refine ⟨fun r h => ?_, fun t h => ?_⟩
  · rw [h] at same
    exact same.of_refused
  · rw [h] at same
    obtain ⟨_, hu, b, rfl, valid⟩ := same.of_next
    exact ⟨b, hu, valid⟩

end Sys2Proof.Machine

/-! The register access on the wire (20_memory.md): the byte order of an image (R59), the channel addresses (R58), the two
access sequences (R60, R62), the calls a step makes (R67, R68), and when a read needs no address phase (R61, R63). -/

namespace Sys2Proof.Machine

/-! ### Addresses and byte order (R58, R59) -/

/-- Settles O32: these are the byte functions as numbers. -/
theorem imagesTravelHighByteFirst : Obligations.ImagesTravelHighByteFirst :=
  ⟨fun v => ⟨toNat_hiByte v, toNat_loByte v⟩, toNat_imageOf⟩

/-- An address that fits a byte does not wrap around. -/
theorem toNat_chanAddr {period : Nat} {base : RegAddr} {ch : Byte} (fits : base.toNat + period * (ch.toNat - 1) ≤ 0xFF) :
    (chanAddr period base ch).toNat = base.toNat + period * (ch.toNat - 1) :=
  Nat.mod_eq_of_lt (by omega)

/-- The bases of the per-channel registers lie at most at the one of the warning limits. -/
theorem toNat_base_le {base : RegAddr} (h : base ∈ [shuntBase, busBase, critBase, warnBase]) :
    base.toNat ≤ warnBase.toNat := by
  revert base; decide

/-- The three rows of R56 for one base. -/
theorem channelRows_source {p : Params} (hn : p.nchan = 3) (hp : p.chPeriod = 2) (k : Kind) (base : RegAddr) :
    [1, 2, 3].map (channelRow p k base) =
      [some (k, chanAddr 2 base 1), some (k, chanAddr 2 base 2), some (k, chanAddr 2 base 3)] := by
  have row {ch : Byte} (hc : validChannel 3 ch = true) : channelRow p k base ch = some (k, chanAddr 2 base ch) := by
    rw [channelRow_valid (hn ▸ hc), hp]
  simp only [List.map_cons, List.map_nil, row (ch := 1) rfl, row (ch := 2) rfl, row (ch := 3) rfl]

/-- Settles O33: an admitted record's channel addresses fit a byte, since those of the highest base do. -/
theorem channelAddressIsBasePlusPeriod : Obligations.ChannelAddressIsBasePlusPeriod := by
  unfold Obligations.ChannelAddressIsBasePlusPeriod
  refine ⟨fun p base ch hw hb h1 hn => ?_, fun base ch hb h1 h3 => ?_, fun p hn hp => ?_⟩
  · obtain ⟨fits, -, -⟩ := (Params.wf_iff p).1 hw
    have low := toNat_base_le hb
    have span : p.chPeriod * (ch.toNat - 1) ≤ p.chPeriod * (p.nchan - 1) := Nat.mul_le_mul_left _ (by omega)
    exact toNat_chanAddr (by omega)
  · have low : base.toNat ≤ 8 := toNat_base_le hb
    have addr : (chanAddr 2 base ch).toNat = base.toNat + 2 * (ch.toNat - 1) := toNat_chanAddr (by omega)
    exact ⟨addr, by omega, rfl, rfl, rfl, rfl⟩
  · have rows := channelRows_source hn hp
    exact ⟨rows .shunt 0x01, rows .bus 0x02, rows .crit 0x07, rows .crit 0x07, rows .warn 0x08, rows .warn 0x08⟩

/-! ### The two access sequences (R60, R62) -/

theorem hits_eq_false_iff (s : State) (a : RegAddr) : s.hits a = false ↔ ¬(s.lastValid = true ∧ s.lastReg = a) := by
  rw [← hits_iff, Bool.not_eq_true]

/-- Settles O34: each path is its equation of `readReg`; the frame is that of any access. -/
theorem readSequence : Obligations.ReadSequence := by
  intro a s
  obtain ⟨es, -, access⟩ := readReg_cases s a
  refine ⟨fun hit n => ?_, fun hit n => ?_, fun miss n => ?_, fun miss n m => ?_, fun miss n m => ?_, access.ready,
    access.untouched⟩
  · simp [readReg_fast_ok s ((hits_iff s a).2 hit) n, imageOf_eq]
  · simp [readReg_fast_fail s ((hits_iff s a).2 hit) n]
  · simp [readReg_address_fail s ((hits_eq_false_iff s a).2 miss) n]
  · simp [readReg_slow_fail s ((hits_eq_false_iff s a).2 miss) n m]
  · simp [readReg_slow_ok s ((hits_eq_false_iff s a).2 miss) n m, imageOf_eq]

/-- Settles O35: on either path of `WriteReg` the one call is the framed write, its bytes those of R59. -/
theorem writeSequence : Obligations.WriteSequence := by
  intro a v s
  obtain ⟨es, path, access⟩ := writeReg_cases s a v
  dsimp only
  rw [← hiByte_eq, ← loByte_eq]
  generalize writeReg a v s = result at path access ⊢
  obtain ⟨ok, t⟩ := result
  have trace := access.trace
  have ready := access.ready
  have untouched := access.untouched
  cases path with
  | ok _ n last reg => exact ⟨trace, fun _ => ⟨rfl, last, reg⟩, fun n' => absurd n n', ready, untouched⟩
  | fail _ n last reg => exact ⟨trace, fun n' => absurd n' n, fun _ => ⟨rfl, last, reg⟩, ready, untouched⟩

/-! ### The calls of a step (R68) -/

/-- The calls seen after are those seen before and at most four new ones, of which only the last may have failed. -/
def AppendsCalls (s t : State) : Prop :=
  t.trace = s.trace ++ newCalls s t ∧ (newCalls s t).length ≤ 4 ∧ ∀ e ∈ (newCalls s t).dropLast, e.ok = true

theorem appendsCalls_of_trace {s t : State} {es : List Event} (trace : t.trace = s.trace ++ es) (short : es.length ≤ 4)
    (earlier : ∀ e ∈ es.dropLast, e.ok = true) : AppendsCalls s t := by
  unfold AppendsCalls
  rw [newCalls_of_trace trace]
  exact ⟨trace, short, earlier⟩

/-- What leaves the trace as it was appends no call. -/
theorem appendsCalls_of_same {s t : State} (h : t.trace = s.trace) : AppendsCalls s t :=
  appendsCalls_of_trace (es := []) (by rw [h, List.append_nil]) (by simp) nofun

/-- A command makes no call, or those of one `ReadReg`, one `WriteReg` or INIT. -/
theorem exec_appendsCalls {i : Instr} {s t : State} (h : exec i s = .next t) : AppendsCalls s t := by
  cases exec_run h with
  | badArgument wf ends => exact appendsCalls_of_same ends.session.trace
  | noSession wf needs ready ends => exact appendsCalls_of_same ends.session.trace
  | codec wf isC ends => exact appendsCalls_of_same ends.session.trace
  | get a r s1 es target ready read access ends =>
    have f := readPath_facts read
    have short := f.short
    exact appendsCalls_of_trace (ends.session.trace.trans access.trace) (by omega) f.earlier
  | set a w b s1 es target ready write access ends =>
    obtain ⟨e, rfl, -⟩ := (writePath_facts write).single
    exact appendsCalls_of_trace (ends.session.trace.trans access.trace) (by simp) nofun
  | init isInit run =>
    have f := initRun_facts run
    exact ⟨f.calls, f.short, f.earlier⟩

/-- Settles O48: only a command makes calls, and presenting one makes none. -/
theorem callsAreAppendedAndStopAtFailure : Obligations.CallsAreAppendedAndStopAtFailure := by
  intro s t h
  rcases (step_cases h).2 with ⟨-, rfl⟩ | ⟨rest, -, rfl⟩ | ⟨c, rest, -, -, ⟨e, -, rfl⟩ | ⟨i, -, hx⟩⟩
  · exact appendsCalls_of_same rfl
  · exact appendsCalls_of_same rfl
  · exact appendsCalls_of_same rfl
  · have calls : AppendsCalls (present c rest s) t := exec_appendsCalls hx
    exact calls

/-! ### What a getter, a setter and INIT do, by `READY` -/

/-- A getter ends `NotInitialized` without a session, and else is one `ReadReg` of its register. -/
theorem exec_getter_cases {i : Instr} {a : RegAddr} {s t : State} (target : readTarget s.params i = some a)
    (h : exec i s = .next t) :
    (s.ready = false ∧ Ends s t .notInitialized) ∨
      (s.ready = true ∧ ∃ r s1 es, ReadPath s a r s1 es ∧ Access s s1 es ∧
        Ends s1 t (if r.isSome then .ok else .communicationError)) := by
  have kinds := target_kinds s.params i
  rw [target] at kinds
  cases exec_run h with
  | badArgument wf ends => exact nomatch wf.symm.trans (argValid_of_readTarget target)
  | noSession wf needs ready ends => exact .inl ⟨ready, ends⟩
  | codec wf isC ends => exact nomatch (kinds.1 isC).1
  | get b r s1 es target' ready read access ends =>
    obtain rfl : a = b := Option.some.inj (target.symm.trans target')
    exact .inr ⟨ready, r, s1, es, read, access, ends⟩
  | set b w d s1 es target' ready write access ends => exact nomatch target'.symm.trans (kinds.2.1 rfl).1
  | init isInit run => exact absurd isInit (kinds.2.1 rfl).2.2

/-- A setter ends `NotInitialized` without a session, and else is one `WriteReg` to its register. -/
theorem exec_setter_cases {i : Instr} {a : RegAddr} {s t : State} (target : writeTarget s.params i = some a)
    (h : exec i s = .next t) :
    (s.ready = false ∧ Ends s t .notInitialized) ∨
      (s.ready = true ∧ ∃ w b s1 es, WritePath s a w b s1 es ∧ Access s s1 es ∧
        Ends s1 t (if b then .ok else .communicationError)) := by
  have kinds := target_kinds s.params i
  rw [target] at kinds
  cases exec_run h with
  | badArgument wf ends => exact nomatch wf.symm.trans (argValid_of_writeTarget target)
  | noSession wf needs ready ends => exact .inl ⟨ready, ends⟩
  | codec wf isC ends => exact nomatch (kinds.1 isC).2.1
  | get b r s1 es target' ready read access ends => exact nomatch target'.symm.trans (kinds.2.2 rfl).1
  | set b w d s1 es target' ready write access ends =>
    obtain rfl : a = b := Option.some.inj (target.symm.trans target')
    exact .inr ⟨ready, w, d, s1, es, write, access, ends⟩
  | init isInit run => exact absurd isInit (kinds.2.2 rfl).2.2

theorem exec_init_facts {s t : State} (h : exec .init s = .next t) : InitFacts s t := by
  cases h
  exact initRun_facts (initSession_run s)

/-! ### Which registers a command writes (R67) -/

/-- A setter writes its register once, and none without a session. -/
theorem writtenRegs_setter {i : Instr} {a : RegAddr} {s t : State} (target : writeTarget s.params i = some a)
    (h : exec i s = .next t) : writtenRegs (newCalls s t) = if s.ready = true then [a] else [] := by
  rcases exec_setter_cases target h with ⟨ready, ends⟩ | ⟨ready, w, b, s1, es, write, access, ends⟩
  · rw [newCalls_nil ends.session, ready]
    rfl
  · have writes := (writePath_facts write).writes []
    rw [List.append_nil] at writes
    rw [newCalls_of_ends access ends, writes, if_pos ready]
    rfl

/-- A command that is neither a setter nor INIT writes no register: the calls of a read are no framed writes. -/
theorem writtenRegs_nonSetter {i : Instr} {s t : State} (target : writeTarget s.params i = none) (noInit : i ≠ .init)
    (h : exec i s = .next t) : writtenRegs (newCalls s t) = [] := by
  cases exec_run h with
  | badArgument wf ends => rw [newCalls_nil ends.session]; rfl
  | noSession wf needs ready ends => rw [newCalls_nil ends.session]; rfl
  | codec wf isC ends => rw [newCalls_nil ends.session]; rfl
  | get a r s1 es target' ready read access ends =>
    rw [newCalls_of_ends access ends]
    exact (readPath_facts read).writes
  | set a w b s1 es target' ready write access ends => exact nomatch target.symm.trans target'
  | init isInit run => exact absurd isInit noInit

/-- Settles O50: a setter makes one framed write, INIT at most the two of R171, and any other command none. -/
theorem commandWritesOnlyItsRegister : Obligations.CommandWritesOnlyItsRegister := by
  intro i s t h
  refine ⟨fun target noInit => writtenRegs_nonSetter target noInit h, fun a target => writtenRegs_setter target h, ?_, ?_⟩
  · rintro rfl
    exact (exec_init_facts h).writes
  · rintro rfl
    exact (exec_init_facts h).written

/-! ### Reads without an address phase (R61, R63) -/

/-- A session is on and the last register is `a`: what a successful access to `a` leaves. -/
structure LastAccessed (s : State) (a : RegAddr) : Prop where
  ready : s.ready = true
  valid : s.lastValid = true
  reg   : s.lastReg = a

/-- What an access left of the last-register pair stands when the command has ended. -/
theorem lastAccessed_of_ends {s s1 t : State} {a : RegAddr} {es : List Event} {e : Status} (ready : s.ready = true)
    (access : Access s s1 es) (ends : Ends s1 t e) (valid : s1.lastValid = true) (reg : s1.lastReg = a) :
    LastAccessed t a :=
  ⟨ends.session.ready.trans (access.ready.trans ready), ends.session.lastValid.trans valid,
    ends.session.lastReg.trans reg⟩

theorem lastAccessed_of_getter {i : Instr} {a : RegAddr} {s t : State} (target : readTarget s.params i = some a)
    (h : exec i s = .next t) (ok : t.status = 0) : LastAccessed t a := by
  rcases exec_getter_cases target h with ⟨-, ends⟩ | ⟨ready, r, s1, es, read, access, ends⟩
  · exact absurd (ends.status.symm.trans ok) (by decide)
  · have f := readPath_facts read
    cases r with
    | none => exact absurd (ends.status.symm.trans ok) (by decide)
    | some w => exact lastAccessed_of_ends ready access ends f.valid (f.reg rfl)

theorem lastAccessed_of_setter {i : Instr} {a : RegAddr} {s t : State} (target : writeTarget s.params i = some a)
    (h : exec i s = .next t) (ok : t.status = 0) : LastAccessed t a := by
  rcases exec_setter_cases target h with ⟨-, ends⟩ | ⟨ready, w, b, s1, es, write, access, ends⟩
  · exact absurd (ends.status.symm.trans ok) (by decide)
  · have f := writePath_facts write
    cases b with
    | false => exact absurd (ends.status.symm.trans ok) (by decide)
    | true => exact lastAccessed_of_ends ready access ends f.valid (f.reg rfl)

theorem lastAccessed_of_init {s t : State} (h : exec .init s = .next t) (ok : t.status = 0) : LastAccessed t 0x00 := by
  have f := exec_init_facts h
  exact ⟨f.ready.trans (decide_eq_true ok), f.valid (by rw [ok]; decide), f.reg ok⟩

/-- A getter of the last register makes one data read and no other call, whatever the device answers. -/
theorem newCalls_getter_hit {i : Instr} {a : RegAddr} {s t : State} (last : LastAccessed s a)
    (target : readTarget s.params i = some a) (h : exec i s = .next t) :
    ∃ n b0 b1, newCalls s t = [.read s.devAddr 2 s.params.stopAfterData n [b0, b1]] := by
  have hit : s.hits a = true := (hits_iff s a).2 ⟨last.valid, last.reg⟩
  rcases exec_getter_cases target h with ⟨ready, -⟩ | ⟨-, r, s1, es, read, access, ends⟩
  · exact nomatch ready.symm.trans last.ready
  · rw [newCalls_of_ends access ends]
    cases read with
    | fastOk | fastFail => exact ⟨_, _, _, rfl⟩
    | addressFail _ miss | slowOk _ miss | slowFail _ miss => exact nomatch miss.symm.trans hit

/-- A getter of a register that is not the last one writes the address byte first. -/
theorem newCalls_getter_miss {i : Instr} {a : RegAddr} {s t : State} (ready : s.ready = true) (miss : s.hits a = false)
    (target : readTarget s.params i = some a) (h : exec i s = .next t) :
    ∃ n more, newCalls s t = .write s.devAddr [a] false n :: more := by
  rcases exec_getter_cases target h with ⟨off, -⟩ | ⟨-, r, s1, es, read, access, ends⟩
  · exact nomatch off.symm.trans ready
  · rw [newCalls_of_ends access ends]
    cases read with
    | fastOk _ hit | fastFail _ hit => exact nomatch miss.symm.trans hit
    | addressFail | slowOk | slowFail => exact ⟨_, _, rfl⟩

/-- Settles O53: the first getter leaves `a` as the last register, and one of another register in between leaves that
one. -/
theorem repeatedReadSkipsTheAddress : Obligations.RepeatedReadSkipsTheAddress := by
  intro i i' j a b s t u v read again other h ok
  rw [← (exec_untouched h).params] at again other
  refine ⟨newCalls_getter_hit (lastAccessed_of_getter read h ok) again, fun differ hj okj h' => ?_⟩
  have last := lastAccessed_of_getter other hj okj
  have miss : u.hits a = false := (hits_eq_false_iff u a).2 fun ⟨_, reg⟩ => differ (reg.symm.trans last.reg)
  rw [← (exec_untouched hj).params] at again
  exact newCalls_getter_miss last.ready miss again h'

/-- Settles O54: a setter of `a`, and INIT for 0x00, leaves `a` as the last register. -/
theorem readAfterWriteSkipsTheAddress : Obligations.ReadAfterWriteSkipsTheAddress := by
  intro i j a s t u writer read h ok hj
  rw [← (exec_untouched h).params] at read
  rcases writer with target | ⟨rfl, rfl⟩
  · exact newCalls_getter_hit (lastAccessed_of_setter target h ok) read hj
  · exact newCalls_getter_hit (lastAccessed_of_init h ok) read hj

end Sys2Proof.Machine

/-! The command word of a format N command (30_encoding.md section 2). -/

namespace Sys2Proof.Machine

/-- A word put together from its two fields is looked up in the opcode map by them. -/
@[simp] theorem decode_join (op arg : Byte) : decode (op ++ arg) = decodeOp op arg := by
  rw [decode, opField_join, argField_join]

/-- R92: the row that a format N command's `op` selects has no use for the `arg`. The rows that carry one, of formats C
and K, are not format N. -/
theorem decodeOp_op_of_formatN {i : Instr} (h : formatN i = true) (arg : Byte) : decodeOp i.op arg = .ok i := by
  cases i with
  | voltToReg | regToVolt => exact nomatch h
  | shuntVoltageV | busVoltageV | getCritLimitV | setCritLimitV | getWarnLimitV | setWarnLimitV => exact nomatch h
  | _ => rfl

/-- Settles O3: the opcode map is read with the word's two fields, and a format N row ignores the second. -/
theorem formatNArgumentIsIgnored : Obligations.FormatNArgumentIsIgnored := by
  intro i h arg
  rw [decode_join, decodeOp_op_of_formatN h]

end Sys2Proof.Machine

/-! The bit-field codec (40_codec_bitfield.md): what every codec operation leaves alone, the images and the records as
numbers, the round trips, and that a field of a Configuration has its bits of the image to itself. -/

namespace Sys2Proof.Machine

/-! ### What a codec operation leaves alone (R120, 41_codec_voltage.md R140) -/

/-- A codec operation with a valid argument ends `Ok`, and at most the result ports differ besides. -/
theorem codec_ends {i : Instr} {s t : State} (isC : isCodec i = true) (valid : i.argValid s.params.nchan = true)
    (h : exec i s = .next t) : Ends s t .ok := by
  obtain ⟨noRead, noWrite, noInit⟩ := (target_kinds s.params i).1 isC
  cases exec_run h with
  | badArgument wf ends => exact nomatch valid.symm.trans wf
  | noSession wf needs ready ends => simp [needsSession, isC] at needs
  | codec wf isC ends => exact ends
  | get a r s1 es target ready read access ends => exact nomatch noRead.symm.trans target
  | set a w b s1 es target ready write access ends => exact nomatch noWrite.symm.trans target
  | init isInit run => exact absurd isInit noInit

/-- The state with another session, another trace and other answers to come. -/
def State.withSession (ready lastValid : Bool) (lastReg : RegAddr) (trace : List Event) (answers : List Answer)
    (s : State) : State :=
  { s with ready := ready, lastValid := lastValid, lastReg := lastReg, trace := trace, answers := answers }

@[simp] theorem withSession_params (ready lastValid : Bool) (lastReg : RegAddr) (trace : List Event)
    (answers : List Answer) (s : State) : (s.withSession ready lastValid lastReg trace answers).params = s.params := rfl

@[simp] theorem withSession_inV (ready lastValid : Bool) (lastReg : RegAddr) (trace : List Event)
    (answers : List Answer) (s : State) : (s.withSession ready lastValid lastReg trace answers).inV = s.inV := rfl

/-- The outcome with its next state, if it has one, changed by `f`. -/
def mapNext (f : State → State) : Host.Outcome State Fault Refusal → Host.Outcome State Fault Refusal
  | .next t => .next (f t)
  | .fault e => .fault e
  | .refused r => .refused r

/-- A codec operation commutes with a change of the session, the trace and the answers to come. -/
theorem codec_withSession {i : Instr} (isC : isCodec i = true) (ready lastValid : Bool) (lastReg : RegAddr)
    (trace : List Event) (answers : List Answer) (s : State) :
    exec i (s.withSession ready lastValid lastReg trace answers) =
      mapNext (State.withSession ready lastValid lastReg trace answers) (exec i s) := by
  cases i
  case packConfig | unpackConfig | packMaskEnable | unpackMaskEnable => rfl
  case voltToReg kind =>
    simp only [exec, execVoltToReg, withSession_params, withSession_inV]
    cases kindOf kind with
    | none => rfl
    | some k =>
      dsimp only
      cases encodeVolt s.params k s.inV <;> rfl
  case regToVolt kind =>
    simp only [exec, execRegToVolt]
    cases kindOf kind <;> rfl
  all_goals exact absurd isC (by simp [isCodec, Instr.op])

/-- Settles O31: the operation commutes with the change, which leaves a refusal as it is. -/
theorem codecIgnoresTheSession : Obligations.CodecIgnoresTheSession := by
  intro i s ready lastValid lastReg trace answers isC
  have commutes := codec_withSession isC ready lastValid lastReg trace answers s
  refine ⟨fun r h => ?_, fun t h => ?_⟩
  · rw [h] at commutes
    exact commutes
  · rw [h] at commutes
    exact commutes

/-! ### Configuration as numbers (R121, R122) -/

/-- A 3-bit field is the sum of its bits. -/
theorem toNat_eq_bits3 (k : BitVec 3) :
    k.toNat = (k.getLsbD 0).toNat + 2 * (k.getLsbD 1).toNat + 4 * (k.getLsbD 2).toNat := by
  have := k.isLt
  simp only [BitVec.getLsbD, Nat.toNat_testBit]
  omega

/-- The image of a Configuration is the sum of its fields, each moved to its place in the layout. -/
theorem toNat_packConfig (c : DeviceConfig) :
    (packConfig c).toNat =
      c.rst.toNat * 32768 + c.ch1En.toNat * 16384 + c.ch2En.toNat * 8192 + c.ch3En.toNat * 4096 +
        c.avg.toNat * 512 + c.busCt.toNat * 64 + c.shuntCt.toNat * 8 + c.mode.toNat := by
  rw [toNat_eq_bits (packConfig c), toNat_eq_bits3 c.avg, toNat_eq_bits3 c.busCt, toNat_eq_bits3 c.shuntCt,
    toNat_eq_bits3 c.mode]
  simp only [packConfig_getLsbD, Nat.reduceLT, Nat.reduceEqDiff, Nat.reduceSub, if_true, if_false]
  omega

/-- Settles O12: the image is the sum `toNat_packConfig`, and a codec operation leaves the rest alone. -/
theorem packConfigResult : Obligations.PackConfigResult := by
  intro s
  have ends := codec_ends (i := .packConfig) (s := s) rfl rfl rfl
  exact ⟨_, rfl, ends.status, toNat_packConfig s.inCfg, ends.session, ends.untouched⟩

/-- The fields of the record of an image: a 3-bit field is a remainder by 8 of the image moved down, a flag one by 2. -/
theorem unpackConfig_fields (w : Word) :
    let c := unpackConfig w
    let r := w.toNat
    c.mode.toNat = r % 8 ∧ c.shuntCt.toNat = r / 8 % 8 ∧ c.busCt.toNat = r / 64 % 8 ∧ c.avg.toNat = r / 512 % 8 ∧
      c.ch3En.toNat = r / 4096 % 2 ∧ c.ch2En.toNat = r / 8192 % 2 ∧ c.ch1En.toNat = r / 16384 % 2 ∧
      c.rst.toNat = r / 32768 % 2 := by
  have field (n : Nat) : (w.extractLsb' n 3).toNat = w.toNat / 2 ^ n % 8 := by
    rw [BitVec.extractLsb'_toNat, Nat.shiftRight_eq_div_pow]
  have flag (n : Nat) : (w.getLsbD n).toNat = w.toNat / 2 ^ n % 2 := Nat.toNat_testBit ..
  exact ⟨(field 0).trans (by rw [pow_zero, Nat.div_one]), field 3, field 6, field 9, flag 12, flag 13, flag 14, flag 15⟩

/-- Settles O13: the fields are `unpackConfig_fields`, and a codec operation leaves the rest alone. -/
theorem unpackConfigResult : Obligations.UnpackConfigResult := by
  intro s
  have ends := codec_ends (i := .unpackConfig) (s := s) rfl rfl rfl
  exact ⟨_, rfl, ends.status, unpackConfig_fields s.inReg, ends.session, ends.untouched⟩

/-! ### The round trip of a Configuration (R123) -/

/-- The fields do not overlap in the image: each is found again at its place. -/
theorem unpackConfig_packConfig (c : DeviceConfig) : unpackConfig (packConfig c) = c := by
  have field {k : BitVec 3} {n : Nat} (h : ∀ j < 3, (packConfig c).getLsbD (n + j) = k.getLsbD j) :
      (packConfig c).extractLsb' n 3 = k :=
    BitVec.eq_of_getLsbD_eq fun j hj => by
      rw [BitVec.getLsbD_extractLsb', h j hj, decide_eq_true hj, Bool.true_and]
  have flag (j : Nat) := packConfig_getLsbD c j
  obtain ⟨mode, shuntCt, busCt, avg, ch3En, ch2En, ch1En, rst⟩ := c
  rw [unpackConfig, DeviceConfig.mk.injEq]
  refine ⟨field fun j hj => ?_, field fun j hj => ?_, field fun j hj => ?_, field fun j hj => ?_,
    flag 12, flag 13, flag 14, flag 15⟩
  -- which row of the layout holds the position is decided by comparing numbers
  all_goals rw [packConfig_getLsbD]; grind

/-- The fields tile the 16 bits of an image: packed again they are the image. -/
theorem packConfig_unpackConfig (w : Word) : packConfig (unpackConfig w) = w := by
  obtain ⟨mode, shuntCt, busCt, avg, ch3En, ch2En, ch1En, rst⟩ := unpackConfig_fields w
  have := w.isLt
  apply BitVec.eq_of_toNat_eq
  rw [toNat_packConfig, mode, shuntCt, busCt, avg, ch3En, ch2En, ch1En, rst]
  omega

/-- Settles O16: the fields neither overlap in an image nor leave a bit of it out. -/
theorem configRoundTrip : Obligations.ConfigRoundTrip := ⟨unpackConfig_packConfig, packConfig_unpackConfig⟩

/-! ### Field isolation (R124) -/

/-- A word that differs from `w` only in the three bits from `n` on, and has the field `k` there, is `w` with the field's
mask cleared and the field put at its place. -/
theorem eq_replace_field {w w' mask put : Word} {k : BitVec 3} {n : Nat}
    (hmask : (7 : BitVec 3).setWidth 16 <<< n = mask) (hput : k.setWidth 16 <<< n = put)
    (h : ∀ j < 16, w'.getLsbD j = if n ≤ j ∧ j < n + 3 then k.getLsbD (j - n) else w.getLsbD j) :
    w' = (w &&& ~~~mask) ||| put := by
  subst hmask hput
  have ones (i : Nat) : (7 : BitVec 3).getLsbD i = decide (i < 3) := BitVec.getLsbD_allOnes (v := 3)
  apply BitVec.eq_of_getLsbD_eq
  intro j hj
  rw [h j hj]
  simp only [BitVec.getLsbD_or, BitVec.getLsbD_and, BitVec.getLsbD_not, getLsbD_field_shift, ones, hj]
  by_cases low : n ≤ j
  · by_cases high : j < n + 3
    · simp [low, high, show j - n < 3 by omega]
    · simp [low, high, show ¬j - n < 3 by omega, BitVec.getLsbD_of_ge k (j - n) (by omega)]
  · simp [low]

/-- A word that differs from `w` only in the bit `n`, and has the flag `b` there, is `w` with the flag's mask cleared and the
flag put at its place. -/
theorem eq_replace_flag {w w' mask : Word} {b : Bool} {n : Nat} (hmask : bit true <<< n = mask)
    (h : ∀ j < 16, w'.getLsbD j = if j = n then b else w.getLsbD j) :
    w' = (w &&& ~~~mask) ||| (if b then mask else 0) := by
  subst hmask
  have put : (if b then bit true <<< n else 0) = bit b <<< n := by cases b <;> simp [bit]
  rw [put]
  apply BitVec.eq_of_getLsbD_eq
  intro j hj
  rw [h j hj]
  simp only [BitVec.getLsbD_or, BitVec.getLsbD_and, BitVec.getLsbD_not, getLsbD_bit_shift, hj]
  by_cases here : j = n <;> simp [here]

/-- Settles O17: by `packConfig_getLsbD` the two images differ in the bits of the field alone, which are those of its
mask. -/
theorem configFieldsAreIsolated : Obligations.ConfigFieldsAreIsolated := by
  intro c k b
  refine ⟨eq_replace_field (n := 0) rfl (BitVec.shiftLeft_zero _) fun j hj => ?_,
    eq_replace_field (n := 3) rfl rfl fun j hj => ?_, eq_replace_field (n := 6) rfl rfl fun j hj => ?_,
    eq_replace_field (n := 9) rfl rfl fun j hj => ?_,
    eq_replace_flag (n := 12) rfl fun j hj => ?_, eq_replace_flag (n := 13) rfl fun j hj => ?_,
    eq_replace_flag (n := 14) rfl fun j hj => ?_, eq_replace_flag (n := 15) rfl fun j hj => ?_⟩
  -- the two images, position by position along the layout
  all_goals simp only [packConfig_getLsbD]; grind

/-! ### Mask/Enable (R125 to R127) -/

/-- In an admitted parameter record the Mask/Enable layout is admitted. -/
theorem Params.layout_wf {p : Params} (h : p.wf = true) : p.meLayout.wf = true := by
  obtain ⟨-, injective, -⟩ := (Params.wf_iff p).1 h
  exact (MeLayout.wf_iff _).2 injective

/-- Under the reference layout the image is the sum of the flags, in the order of R34's table. -/
theorem toNat_packMaskEnable_reference (m : MaskEnable) :
    (packMaskEnable .reference m).toNat =
      m.scc1.toNat * 16384 + m.scc2.toNat * 8192 + m.scc3.toNat * 4096 + m.wen.toNat * 2048 + m.cen.toNat * 1024 +
        m.cf1.toNat * 512 + m.cf2.toNat * 256 + m.cf3.toNat * 128 + m.sf.toNat * 64 + m.wf1.toNat * 32 +
        m.wf2.toNat * 16 + m.wf3.toNat * 8 + m.pvf.toNat * 4 + m.tcf.toNat * 2 + m.cvrf.toNat := by
  have flag (j : Nat) (f : MeFlag) (at_j : (MeLayout.reference.pos f).val = j) :
      (packMaskEnable .reference m).getLsbD j = m.get f :=
    at_j ▸ packMaskEnable_pos (by decide) m f
  rw [toNat_eq_bits, flag 0 .cvrf rfl, flag 1 .tcf rfl, flag 2 .pvf rfl, flag 3 .wf3 rfl, flag 4 .wf2 rfl,
    flag 5 .wf1 rfl, flag 6 .sf rfl, flag 7 .cf3 rfl, flag 8 .cf2 rfl, flag 9 .cf1 rfl, flag 10 .cen rfl,
    flag 11 .wen rfl, flag 12 .scc3 rfl, flag 13 .scc2 rfl, flag 14 .scc1 rfl, packMaskEnable_top _ m le_rfl,
    Bool.toNat_false]
  simp only [MaskEnable.get]
  omega

/-- Settles O14: in an admitted layout each flag has its bit, bit 15 is no flag's, and the reference image is
`toNat_packMaskEnable_reference`. -/
theorem packMaskEnableResult : Obligations.PackMaskEnableResult := by
  intro s hw
  have ends := codec_ends (i := .packMaskEnable) (s := s) rfl rfl rfl
  refine ⟨_, rfl, ends.status, packMaskEnable_pos (Params.layout_wf hw) s.inMe, packMaskEnable_top _ _ le_rfl, ?_,
    ends.session, ends.untouched⟩
  intro layout
  rw [finish_outReg, layout]
  exact toNat_packMaskEnable_reference s.inMe

/-- Settles O15: a flag is the bit at its position, which the reference layout numbers. -/
theorem unpackMaskEnableResult : Obligations.UnpackMaskEnableResult := by
  intro s
  have ends := codec_ends (i := .unpackMaskEnable) (s := s) rfl rfl rfl
  refine ⟨_, rfl, ends.status, unpackMaskEnable_get s.params.meLayout s.inReg, ?_, ends.session, ends.untouched⟩
  intro layout
  rw [finish_outMe, layout]
  exact ⟨rfl, rfl, rfl, rfl, rfl, rfl, rfl, rfl, rfl, rfl, rfl, rfl, rfl, rfl, rfl⟩

/-- In an admitted layout each flag is found again at its position. -/
theorem unpackMaskEnable_packMaskEnable {l : MeLayout} (h : l.wf = true) (m : MaskEnable) :
    unpackMaskEnable l (packMaskEnable l m) = m :=
  maskEnable_ext fun f => by rw [unpackMaskEnable_get, packMaskEnable_pos h]

/-- In an admitted layout the flags fill the 15 positions; bit 15 of an image has none and is lost. -/
theorem packMaskEnable_unpackMaskEnable {l : MeLayout} (h : l.wf = true) (r : Word) :
    packMaskEnable l (unpackMaskEnable l r) = r &&& 0x7FFF := by
  have low : ∀ j < 16, (0x7FFF : Word).getLsbD j = decide (j < 15) := by decide
  apply BitVec.eq_of_getLsbD_eq
  intro j hj
  rw [BitVec.getLsbD_and, low j hj]
  by_cases hj15 : j < 15
  · obtain ⟨f, hf⟩ := layout_surjective h ⟨j, hj15⟩
    have pos : (l.pos f).val = j := congrArg Fin.val hf
    rw [← pos, packMaskEnable_pos h, unpackMaskEnable_get, pos, decide_eq_true hj15, Bool.and_true]
  · rw [packMaskEnable_top _ _ (Nat.le_of_not_lt hj15), decide_eq_false hj15, Bool.and_false]

/-- Settles O18: flags and positions correspond one to one. -/
theorem maskEnableRoundTrip : Obligations.MaskEnableRoundTrip := fun _ h =>
  ⟨unpackMaskEnable_packMaskEnable h, packMaskEnable_unpackMaskEnable h⟩

end Sys2Proof.Machine

/-! The fixed-point scaler (41_codec_voltage.md): VOLT_TO_REG and REG_TO_VOLT, the raw value of a voltage, the images of the
encoder, its round trips, and the corner cases of the decoder. -/

namespace Sys2Proof.Machine

/-! ### The commands (R148, R152) -/

/-- VOLT_TO_REG with a valid kind puts the image of `in_v` on `out_reg`. -/
theorem exec_voltToReg {kind : Byte} {k : Kind} {s : State} {w : Word} (hk : kind.toNat = kindNumber k)
    (hw : encodeVolt s.params k s.inV = some w) : exec (.voltToReg kind) s = .next (finish { s with outReg := w }) := by
  simp only [exec, execVoltToReg, kindOf_number hk, hw]

/-- REG_TO_VOLT with a valid kind puts the voltage of `in_reg` on `out_v`. -/
theorem exec_regToVolt {kind : Byte} {k : Kind} (hk : kind.toNat = kindNumber k) (s : State) :
    exec (.regToVolt kind) s = .next (finish { s with outV := decodeVolt s.params k s.inReg }) := by
  simp only [exec, execRegToVolt, kindOf_number hk]

/-- The number of a kind is a valid argument (R39). -/
theorem validKind_of_number {kind : Byte} {k : Kind} (hk : kind.toNat = kindNumber k) : validKind kind = true := by
  rw [← kindOf_isSome, kindOf_number hk, Option.isSome_some]

/-! ### The image of a raw value, sign by sign (R145, R147) -/

theorem toNat_v2r_of_nonneg (m : SignMode) {t : Scale} {v : Rat} (h : t.wf = true) (hv : 0 ≤ rawOf t v) :
    ((v2r m t v).toNat : Int) = rawOf t v * 2 ^ t.shift := by
  rw [toNat_v2r h, if_pos hv]

theorem toNat_v2r_signMag_of_neg {t : Scale} {v : Rat} (h : t.wf = true) (hv : rawOf t v < 0) :
    ((v2r .signMag t v).toNat : Int) = 0x8000 + -rawOf t v * 2 ^ t.shift := by
  rw [toNat_v2r h, if_neg (not_le.2 hv), neg_mul]
  rfl

theorem toNat_v2r_twos_of_neg {t : Scale} {v : Rat} (h : t.wf = true) (hv : rawOf t v < 0) :
    ((v2r .twos t v).toNat : Int) = 0x10000 + rawOf t v * 2 ^ t.shift := by
  rw [toNat_v2r h, if_neg (not_le.2 hv)]

/-- The encoder sees a voltage through its raw value alone. -/
theorem v2r_congr {m : SignMode} {t : Scale} {v w : Rat} (h : rawOf t v = rawOf t w) : v2r m t v = v2r m t w := by
  rw [v2r, v2r, h]

/-- Settles O19: the raw value is the clamped quotient truncated, by `trunc_spec`, and its image is read off the sign. -/
theorem voltToRegResult : Obligations.VoltToRegResult := by
  intro s kind k v hw hk hv t q
  have scale : t.wf = true := scale_wf hw k
  have encoded : encodeVolt s.params k s.inV = some (v2r s.params.signMode t v) := by rw [hv]; rfl
  have run := exec_voltToReg hk encoded
  have ends := codec_ends (i := .voltToReg kind) (by simp [isCodec, Instr.op]) (validKind_of_number hk) run
  obtain ⟨fsv, -⟩ := (Scale.wf_iff t).1 scale
  have raw : rawOf t v = trunc q := by rw [rawOf, clamp_eq fsv]
  obtain ⟨le, lt, sign⟩ := trunc_spec q
  rw [← raw] at le lt sign
  refine ⟨rawOf t v, _, le, lt, sign, run, ends.status, toNat_v2r_of_nonneg _ scale, fun neg mode => ?_,
    fun neg mode => ?_, ends.session, ends.untouched⟩
  · rw [finish_outReg, mode, toNat_v2r_signMag_of_neg scale neg]
  · rw [finish_outReg, mode, toNat_v2r_twos_of_neg scale neg]

/-- Settles O20: the raw value of the image is `imageRaw`, which in each sign mode is the arithmetic of the statement. -/
theorem regToVoltResult : Obligations.RegToVoltResult := by
  intro s kind k hw hk t r raw
  have run := exec_regToVolt hk s
  have ends := codec_ends (i := .regToVolt kind) (by simp [isCodec, Instr.op]) (validKind_of_number hk) run
  obtain ⟨-, -, shift, -⟩ := (Scale.wf_iff t).1 (scale_wf hw k)
  have decoded : imageRaw s.params.signMode t.shift s.inReg = raw := by
    unfold raw
    cases s.params.signMode with
    | signMag => exact imageRaw_signMag shift s.inReg
    | twos => exact imageRaw_twos shift s.inReg
  refine ⟨_, run, ends.status, ?_, ends.session, ends.untouched⟩
  rw [finish_outV, ← decoded]
  rfl

/-! ### Voltages that are no numbers (R150) -/

/-- The command encodes `in_v` with the triple of `k` and looks at it no further: a value with no image is refused, and with
an image `w` it has the next state `run w`, whose `in_v` is as it was. -/
def EncodesVolt (i : Instr) (k : Kind) (s : State) : Prop :=
  ∃ run : Word → State, ∀ v : Volt,
    (encodeVolt s.params k v = none → exec i { s with inV := v } = .refused .nanVoltage) ∧
      ∀ w, encodeVolt s.params k v = some w → exec i { s with inV := v } = .next { run w with inV := v }

/-- VOLT_TO_REG puts the image on `out_reg`. -/
theorem encodesVolt_voltToReg {kind : Byte} {k : Kind} (hk : kind.toNat = kindNumber k) (s : State) :
    EncodesVolt (.voltToReg kind) k s := by
  refine ⟨fun w => finish { s with outReg := w }, fun v => ⟨fun noImage => ?_, fun w image => ?_⟩⟩
  · simp only [exec, execVoltToReg, kindOf_number hk, noImage]
  · exact exec_voltToReg hk image

/-- In `Ready` a setter refuses a value that has no image. -/
theorem setV_no_image {s : State} {k : Kind} {a : RegAddr} (ready : s.ready = true)
    (noImage : encodeVolt s.params k s.inV = none) : setV k a s = .refused .nanVoltage := by
  rw [setV, if_pos ready, noImage]

/-- In `Ready` a setter writes the image to its register. -/
theorem setV_image {s : State} {k : Kind} {a : RegAddr} {w : Word} (ready : s.ready = true)
    (image : encodeVolt s.params k s.inV = some w) : setV k a s = .next (setReg a w s) := by
  rw [setV, if_pos ready, image]

/-- A register write does not look at `in_v`. -/
theorem setReg_inV (a : RegAddr) (w : Word) (s : State) (v : Volt) :
    setReg a w { s with inV := v } = { setReg a w s with inV := v } := by
  unfold setReg
  split
  · by_cases count : (s.answer 0).count = 3
    · rw [writeReg_ok s count, writeReg_ok { s with inV := v } count]
      rfl
    · rw [writeReg_fail s count, writeReg_fail { s with inV := v } count]
      rfl
  · rfl

/-- A voltage setter in `Ready` writes the image to its register. -/
theorem encodesVolt_voltSetter {i : Instr} {k : Kind} {a : RegAddr} {s : State} (ready : s.ready = true)
    (row : voltSetter s.params i = some (k, a)) : EncodesVolt i k s := by
  refine ⟨fun w => setReg a w s, fun v => ?_⟩
  have run : exec i { s with inV := v } = setV k a { s with inV := v } := exec_voltSetter row
  refine ⟨fun noImage => run.trans (setV_no_image (s := { s with inV := v }) ready noImage), fun w image => ?_⟩
  exact run.trans ((setV_image (s := { s with inV := v }) ready image).trans (congrArg _ (setReg_inV a w s v)))

/-- Settles O21: NaN has no image, and an infinity has the image of the full-scale voltage of its sign. -/
theorem nanIsRefusedAndInfinitiesClamp : Obligations.NanIsRefusedAndInfinitiesClamp := by
  intro i k s h
  have encodes : EncodesVolt i k s := by
    rcases h with ⟨kind, rfl, hk⟩ | ⟨ready, a, row⟩
    · exact encodesVolt_voltToReg hk s
    · exact encodesVolt_voltSetter ready row
  obtain ⟨run, encodes⟩ := encodes
  have goesOn (v : Volt) {w : Word} (image : encodeVolt s.params k v = some w) :
      exec i { s with inV := v } = .next { run w with inV := v } := (encodes v).2 w image
  exact ⟨(encodes .nan).1 rfl, ⟨_, goesOn .posInf rfl, goesOn (.num _) rfl⟩, ⟨_, goesOn .negInf rfl, goesOn (.num _) rfl⟩⟩

/-! ### The raw value (R141, R142) -/

/-- The LSB step of an admitted triple is positive (R154). -/
theorem Scale.step_pos {t : Scale} (h : t.wf = true) : 0 < t.fsv / t.fsc := by
  obtain ⟨fsv, fsc, -, -⟩ := (Scale.wf_iff t).1 h
  exact div_pos fsv (by exact_mod_cast fsc)

/-- On an in-range voltage, which the clamp does not change, the raw value is the truncated quotient. -/
theorem rawOf_of_range {t : Scale} {v : Rat} (lo : -t.fsv ≤ v) (hi : v ≤ t.fsv) :
    rawOf t v = trunc (v * t.fsc / t.fsv) := by
  rw [rawOf, clamp, if_neg (not_lt.2 lo), if_neg (not_lt.2 hi)]

/-- A whole number `k` of LSB steps has the raw value `k`: the quotient is `k` exactly (R156). -/
theorem rawOf_quantised {t : Scale} (h : t.wf = true) {k : Int} (lo : -(t.fsc : Int) ≤ k) (hi : k ≤ t.fsc) :
    rawOf t (k * t.fsv / t.fsc) = k := by
  obtain ⟨fsv, fsc, -, -⟩ := (Scale.wf_iff t).1 h
  have fsc' : (0 : Rat) < t.fsc := by exact_mod_cast fsc
  have lo' : -(t.fsc : Rat) ≤ k := by exact_mod_cast lo
  have hi' : (k : Rat) ≤ t.fsc := by exact_mod_cast hi
  have quotient : (k * t.fsv / t.fsc : Rat) * t.fsc / t.fsv = k := by field_simp
  rw [rawOf_of_range, quotient, trunc_intCast]
  · rw [le_div_iff₀ fsc']; nlinarith
  · rw [div_le_iff₀ fsc']; nlinarith

/-- At and above full scale the raw value is `FSC` (R149 (d)). -/
theorem rawOf_of_ge {t : Scale} (h : t.wf = true) {v : Rat} (hv : t.fsv ≤ v) : rawOf t v = t.fsc := by
  obtain ⟨fsv, -⟩ := (Scale.wf_iff t).1 h
  rw [rawOf, clamp_eq fsv, min_eq_right hv, max_eq_right (by linarith), mul_div_cancel_left₀ _ fsv.ne']
  exact trunc_intCast t.fsc

/-- At and below negative full scale the raw value is `-FSC` (R149 (d)). -/
theorem rawOf_of_le {t : Scale} (h : t.wf = true) {v : Rat} (hv : v ≤ -t.fsv) : rawOf t v = -t.fsc := by
  rw [← neg_neg v, rawOf_neg h, rawOf_of_ge h (by linarith)]

/-- Truncation changes a number by less than 1. -/
theorem abs_sub_trunc_lt (q : Rat) : |q - trunc q| < 1 := by
  have nonneg {p : Rat} (hp : 0 ≤ p) : |p - trunc p| < 1 := by
    rw [abs_of_nonneg (sub_nonneg.2 (trunc_le hp))]
    linarith [lt_trunc_add_one hp]
  rcases le_total 0 q with hq | hq
  · exact nonneg hq
  · have := nonneg (neg_nonneg.2 hq)
    rwa [trunc_neg, Int.cast_neg, neg_sub_neg, abs_sub_comm] at this

/-- A magnitude below one LSB step vanishes (R149 (b)). -/
theorem rawOf_of_small {t : Scale} (h : t.wf = true) {v : Rat} (hv : |v| < t.fsv / t.fsc) : rawOf t v = 0 := by
  obtain ⟨fsv, fsc, -, -⟩ := (Scale.wf_iff t).1 h
  have fsc' : (1 : Rat) ≤ t.fsc := by exact_mod_cast fsc
  have range : |v| ≤ t.fsv := hv.le.trans (div_le_self fsv.le fsc')
  have quotient : |v * t.fsc / t.fsv| < 1 := by
    rw [abs_div, abs_mul, abs_of_pos fsv, Nat.abs_cast, div_lt_one fsv]
    exact (lt_div_iff₀ (by linarith)).1 hv
  obtain ⟨le, -, -⟩ := trunc_spec (v * t.fsc / t.fsv)
  rw [rawOf_of_range (abs_le.1 range).1 (abs_le.1 range).2, ← Int.abs_lt_one_iff]
  exact_mod_cast le.trans_lt quotient

/-! ### Round trips (R155, R156, R158) -/

/-- The round trip of a voltage gives its raw value times the LSB step. -/
theorem r2v_v2r {t : Scale} (h : t.wf = true) (m : SignMode) (v : Rat) :
    r2v m t (v2r m t v) = rawOf t v * t.fsv / t.fsc := by
  rw [r2v_eq, imageRaw_v2r h, mul_comm]

/-- Settles O22: the raw value of a whole number of LSB steps is that number. -/
theorem quantisedVoltageRoundTrip : Obligations.QuantisedVoltageRoundTrip := by
  intro m t k h lo hi
  rw [r2v_v2r h, rawOf_quantised h lo hi]

/-- Settles O23: in range the round trip truncates the voltage counted in LSB steps, and outside it gives `±FSC` steps. -/
theorem voltageRoundTripWithinOneStep : Obligations.VoltageRoundTripWithinOneStep := by
  intro m t v h v'
  obtain ⟨fsv, fsc, -, -⟩ := (Scale.wf_iff t).1 h
  have fsc' : (0 : Rat) < t.fsc := by exact_mod_cast fsc
  have trip : v' = rawOf t v * t.fsv / t.fsc := r2v_v2r h m v
  refine ⟨fun lo hi => ?_, fun above => ?_, fun below => ?_⟩
  · have step := Scale.step_pos h
    have counted : v = v * t.fsc / t.fsv * (t.fsv / t.fsc) := by field_simp
    rw [rawOf_of_range lo hi, mul_div_assoc] at trip
    generalize v * t.fsc / t.fsv = q at trip counted
    obtain ⟨le, -, sign⟩ := trunc_spec q
    rw [trip, counted]
    refine ⟨?_, ?_, ?_⟩
    · rw [abs_mul, abs_mul]
      exact mul_le_mul_of_nonneg_right le (abs_nonneg _)
    · rw [mul_mul_mul_comm]
      exact mul_nonneg sign (mul_self_nonneg _)
    · rw [← sub_mul, abs_mul, abs_of_pos step]
      exact mul_lt_of_lt_one_left step (abs_sub_trunc_lt q)
  · rw [trip, rawOf_of_ge h above.le, Int.cast_natCast, mul_div_cancel_left₀ _ fsc'.ne']
  · rw [trip, rawOf_of_le h below.le, Int.cast_neg, Int.cast_natCast, neg_mul, neg_div, mul_div_cancel_left₀ _ fsc'.ne']

/-- Settles O26: the image of a voltage decodes to a whole number of LSB steps with the same raw value. -/
theorem imageRoundTrip : Obligations.ImageRoundTrip := by
  rintro m t r h ⟨v, rfl⟩
  obtain ⟨lo, hi⟩ := rawOf_bounds h v
  apply v2r_congr
  rw [r2v_v2r h, rawOf_quantised h lo hi]

/-! ### The images of the encoder (R149, R157) -/

/-- The image of a raw value `k`, as a natural number. -/
theorem toNat_v2r_of_raw {t : Scale} (h : t.wf = true) (m : SignMode) {v : Rat} {k : Nat} (raw : rawOf t v = k) :
    (v2r m t v).toNat = k * 2 ^ t.shift := by
  have image := toNat_v2r_of_nonneg m (v := v) h (by omega)
  rw [raw] at image
  exact_mod_cast image

/-- The image of a negative value, by the magnitude `n` of the shifted value (R149 (e)). -/
def negativeImage (m : SignMode) (n : Nat) : Nat :=
  match m with
  | .signMag => 0x8000 + n
  | .twos => 0x10000 - n

/-- The image of a raw value `-k`, as a natural number. -/
theorem toNat_v2r_of_raw_neg {t : Scale} (h : t.wf = true) (m : SignMode) {v : Rat} {k : Nat} (pos : 1 ≤ k)
    (raw : rawOf t v = -k) : (v2r m t v).toNat = negativeImage m (k * 2 ^ t.shift) := by
  have neg : rawOf t v < 0 := by omega
  cases m with
  | signMag =>
    have image := toNat_v2r_signMag_of_neg h neg
    rw [raw, neg_neg] at image
    exact_mod_cast image
  | twos =>
    have image := toNat_v2r_twos_of_neg h neg
    rw [raw, neg_mul] at image
    rw [negativeImage]
    have cast : ((k * 2 ^ t.shift : Nat) : Int) = k * 2 ^ t.shift := by push_cast; rfl
    omega

/-- Settles O24: beyond full scale the raw value stays `FSC` or `-FSC`. -/
theorem voltageSaturates : Obligations.VoltageSaturates := by
  intro m t d h hd
  have top : rawOf t t.fsv = t.fsc := rawOf_of_ge h le_rfl
  refine ⟨v2r_congr ?_, toNat_v2r_of_raw h m top, v2r_congr ?_⟩
  · rw [top, rawOf_of_ge h (by linarith)]
  · rw [rawOf_of_le h le_rfl, rawOf_of_le h (by linarith)]

/-- Settles O25: the image of a voltage is given by the magnitude `k` and the sign of its raw value, and `k` LSB steps of
either sign have the raw value asked for. -/
theorem encoderImagesAreExactly : Obligations.EncoderImagesAreExactly := by
  intro m t r h
  constructor
  · rintro ⟨v, rfl⟩
    obtain ⟨lo, hi⟩ := rawOf_bounds h v
    obtain ⟨k, raw | raw⟩ := (rawOf t v).eq_nat_or_neg
    · exact .inl ⟨k, by omega, toNat_v2r_of_raw h m raw⟩
    · rcases Nat.eq_zero_or_pos k with rfl | pos
      · exact .inl ⟨0, Nat.zero_le _, toNat_v2r_of_raw h m raw⟩
      · exact .inr ⟨k, pos, by omega, toNat_v2r_of_raw_neg h m pos raw⟩
  · rintro (⟨k, hk, image⟩ | ⟨k, pos, hk, image⟩)
    · have raw : rawOf t (((k : Int) : Rat) * t.fsv / t.fsc) = k := rawOf_quantised h (by omega) (by omega)
      exact ⟨_, BitVec.eq_of_toNat_eq ((toNat_v2r_of_raw h m raw).trans image.symm)⟩
    · have raw : rawOf t (((-k : Int) : Rat) * t.fsv / t.fsc) = -k := rawOf_quantised h (by omega) (by omega)
      exact ⟨_, BitVec.eq_of_toNat_eq ((toNat_v2r_of_raw_neg h m pos raw).trans image.symm)⟩

/-- Exclusive or with `0x8000` sets a clear bit 15. -/
theorem toNat_xor_sign {w : Word} (h : w.toNat < 0x8000) : (w ^^^ 0x8000).toNat = 0x8000 + w.toNat := by
  have clear : w.getLsbD 15 = false := by rw [← Bool.not_eq_true, getLsbD15_iff]; omega
  have bits : ∀ j < 16, (0x8000 : Word).getLsbD j = decide (j = 15) := by decide
  rw [toNat_eq_bits (w ^^^ 0x8000), toNat_eq_bits w]
  simp only [BitVec.getLsbD_xor, bits, clear, Nat.reduceLT, Nat.reduceEqDiff, decide_true, decide_false, Bool.xor_false,
    Bool.xor_true, Bool.not_false, Bool.toNat_true, Bool.toNat_false]
  omega

/-- Under `SIGNMAG` the image of `-v`, for `v` with a positive raw value, is that of `v` with bit 15 set. -/
theorem v2r_signMag_neg_of_pos {t : Scale} (h : t.wf = true) {v : Rat} (pos : 0 < rawOf t v) :
    v2r .signMag t (-v) = v2r .signMag t v ^^^ 0x8000 := by
  obtain ⟨lo, hi⟩ := rawOf_bounds h v
  obtain ⟨-, -, -, product⟩ := (Scale.wf_iff t).1 h
  obtain ⟨k, raw⟩ := Int.eq_ofNat_of_zero_le pos.le
  have image := toNat_v2r_of_raw h .signMag raw
  have image_neg := toNat_v2r_of_raw_neg h .signMag (v := -v) (k := k) (by omega) (by rw [rawOf_neg h, raw])
  have small : k * 2 ^ t.shift ≤ t.fsc * 2 ^ t.shift := Nat.mul_le_mul_right _ (by omega)
  apply BitVec.eq_of_toNat_eq
  rw [image_neg, toNat_xor_sign (by omega), image, negativeImage]

/-- Odd symmetry of the images under `SIGNMAG` (R149 (g)). -/
theorem v2r_signMag_neg {t : Scale} (h : t.wf = true) {v : Rat} (nonzero : rawOf t v ≠ 0) :
    v2r .signMag t (-v) = v2r .signMag t v ^^^ 0x8000 := by
  rcases lt_or_gt_of_ne nonzero with neg | pos
  · have back := v2r_signMag_neg_of_pos h (v := -v) (by rw [rawOf_neg h]; omega)
    rw [neg_neg] at back
    rw [back, BitVec.xor_assoc, BitVec.xor_self, BitVec.xor_zero]
  · exact v2r_signMag_neg_of_pos h pos

/-- The magnitude of negative zero is 0 (R153 (b)). -/
theorem imageRaw_negZero {s : Nat} (h : s ≤ 14) : imageRaw .signMag s 0x8000 = 0 := by
  simp [imageRaw_signMag h]

/-- Negative zero is no image (R149 (b)): it would be that of the raw value 0, which is all clear. -/
theorem v2r_signMag_ne_negZero {t : Scale} (h : t.wf = true) (v : Rat) : v2r .signMag t v ≠ 0x8000 := by
  intro negZero
  obtain ⟨-, -, shift, -⟩ := (Scale.wf_iff t).1 h
  have raw : rawOf t v = (0 : Nat) := by rw [← imageRaw_v2r (m := .signMag) h, negZero]; exact imageRaw_negZero shift
  have image := toNat_v2r_of_raw h .signMag raw
  rw [negZero, Nat.zero_mul] at image
  exact absurd image (by decide)

/-- The padding bits of an image are 0 (R149 (h)): the last step masks them. -/
theorem v2r_padding (m : SignMode) (t : Scale) (v : Rat) : (v2r m t v).toNat % 2 ^ t.shift = 0 := by
  rw [v2r, toNat_mask, Nat.mul_mod_left]

/-- Settles O27: the clauses are facts about the raw value, and `v2r` sees no more of a voltage than that. -/
theorem encoderIsMonotonicAndOdd : Obligations.EncoderIsMonotonicAndOdd := by
  intro m t v w h
  have vanishes {u : Rat} (hu : |u| < t.fsv / t.fsc) : v2r m t u = 0 :=
    BitVec.eq_of_toNat_eq ((toNat_v2r_of_raw h m (k := 0) (rawOf_of_small h hu)).trans (Nat.zero_mul _))
  have zero : |(0 : Rat)| < t.fsv / t.fsc := abs_zero.trans_lt (Scale.step_pos h)
  exact ⟨vanishes zero, vanishes, v2r_signMag_ne_negZero h v, rawOf_mono h, rawOf_neg h v, v2r_signMag_neg h,
    v2r_padding m t v⟩

/-! ### The decoder (R151, R153) -/

/-- Powers of 2 up to `2^14` divide the weight of the sign bit. -/
theorem two_pow_dvd_sign {s : Nat} (h : s ≤ 14) : (2 ^ s : Int) ∣ 0x8000 :=
  (pow_dvd_pow 2 (by omega : s ≤ 15)).trans (by norm_num)

/-- `DecSign` as a number, under `SIGNMAG`. -/
theorem decSign_signMag (w : Word) : decSign .signMag w = if 0x8000 ≤ w.toNat then 0x8000 - (w.toNat : Int) else w.toNat := by
  have := w.isLt
  simp only [decSign, getLsbD15_iff, toNat_low15]
  split <;> omega

/-- `DecSign` as a number, under `TWOS`. -/
theorem decSign_twos (w : Word) : decSign .twos w = if 0x8000 ≤ w.toNat then (w.toNat : Int) - 0x10000 else w.toNat := by
  have := w.isLt
  simp only [decSign, BitVec.toInt_eq_toNat_cond]
  split <;> split <;> omega

/-- The arithmetic right shift of the decoder is exact: the mask has cleared the bits it drops (R151). -/
theorem imageRaw_mul_pow {s : Nat} (h : s ≤ 14) (m : SignMode) (r : Word) :
    imageRaw m s r * 2 ^ s = decSign m (r &&& fieldMask s) := by
  refine Int.ediv_mul_cancel ?_
  have masked : (2 ^ s : Int) ∣ ((r &&& fieldMask s).toNat : Int) := by
    rw [toNat_mask]
    push_cast
    exact dvd_mul_left _ _
  have sign := two_pow_dvd_sign h
  cases m with
  | signMag =>
    rw [decSign_signMag]
    split
    · exact dvd_sub sign masked
    · exact masked
  | twos =>
    rw [decSign_twos]
    split
    · exact dvd_sub masked (sign.trans (by norm_num))
    · exact masked

/-- The mask keeps the sign bit. -/
theorem getLsbD15_mask {s : Nat} (h : s ≤ 14) (r : Word) : (r &&& fieldMask s).getLsbD 15 = r.getLsbD 15 := by
  rw [BitVec.getLsbD_and, getLsbD_fieldMask, decide_eq_true (by omega), Bool.and_true]

/-- The decoder counts LSB steps (R153 (e)). -/
theorem r2v_eq_steps (m : SignMode) (t : Scale) (r : Word) :
    r2v m t r = imageRaw m t.shift r * (t.fsv / t.fsc) := by
  rw [r2v_eq]
  ring

/-- The largest magnitude of a negative image: `TWOS` has one more than `SIGNMAG`. -/
def largestNegative : SignMode → Nat
  | .signMag => 0x7FFF
  | .twos => 0x8000

/-- The values of `DecSign` (R151). -/
theorem decSign_bounds (m : SignMode) (w : Word) :
    -(largestNegative m : Int) ≤ decSign m w ∧ decSign m w ≤ (0x7FFF : Nat) := by
  have := w.isLt
  cases m with
  | signMag =>
    rw [decSign_signMag, largestNegative]
    split <;> omega
  | twos =>
    rw [decSign_twos, largestNegative]
    split <;> omega

/-- The raw values an image can hold (R153 (e)). -/
theorem imageRaw_bounds {s : Nat} (h : s ≤ 14) (m : SignMode) (r : Word) :
    -((largestNegative m / 2 ^ s : Nat) : Int) ≤ imageRaw m s r ∧ imageRaw m s r ≤ (0x7FFF / 2 ^ s : Nat) := by
  obtain ⟨lo, hi⟩ := decSign_bounds m (r &&& fieldMask s)
  rw [← imageRaw_mul_pow h] at lo hi
  have pow : (0 : Int) < 2 ^ s := by positivity
  push_cast at lo hi ⊢
  exact ⟨neg_le.1 ((Int.le_ediv_iff_mul_le pow).2 (by linarith)), (Int.le_ediv_iff_mul_le pow).2 hi⟩

/-- With bit 15 set neither mode gives a positive value, and `TWOS` gives no zero. -/
theorem decSign_of_sign {w : Word} (h : w.getLsbD 15 = true) : decSign .signMag w ≤ 0 ∧ decSign .twos w < 0 := by
  have := w.isLt
  have high := (getLsbD15_iff w).1 h
  rw [decSign_signMag, decSign_twos, if_pos high, if_pos high]
  omega

/-- The two sign modes read a word alike if its bit 15 is clear, and else only if `0x8000 - w = w - 0x10000`. -/
theorem decSign_modes_agree_iff (w : Word) :
    decSign .signMag w = decSign .twos w ↔ w.getLsbD 15 = false ∨ w = 0xC000 := by
  have value : w = 0xC000 ↔ w.toNat = 0xC000 := BitVec.toNat_inj.symm
  rw [decSign_signMag, decSign_twos, ← Bool.not_eq_true, getLsbD15_iff, value]
  split <;> omega

/-- Images that agree above the padding decode alike (R153 (a)). -/
theorem r2v_congr {t : Scale} {r r' : Word} (h : r.toNat / 2 ^ t.shift = r'.toNat / 2 ^ t.shift) (m : SignMode) :
    r2v m t r = r2v m t r' := by
  have masked : r &&& fieldMask t.shift = r' &&& fieldMask t.shift :=
    BitVec.eq_of_toNat_eq (by rw [toNat_mask, toNat_mask, h])
  rw [r2v, r2v, masked]

/-- Where the sign modes agree (R153 (d)). -/
theorem r2v_modes_agree_iff {t : Scale} (h : t.wf = true) (r : Word) :
    r2v .signMag t r = r2v .twos t r ↔ r.getLsbD 15 = false ∨ r &&& fieldMask t.shift = 0xC000 := by
  obtain ⟨-, -, shift, -⟩ := (Scale.wf_iff t).1 h
  have step := (Scale.step_pos h).ne'
  have pow : (2 ^ t.shift : Int) ≠ 0 := by positivity
  calc r2v .signMag t r = r2v .twos t r
      ↔ imageRaw .signMag t.shift r = imageRaw .twos t.shift r := by
        rw [r2v_eq_steps, r2v_eq_steps, mul_left_inj' step, Int.cast_inj]
    _ ↔ decSign .signMag (r &&& fieldMask t.shift) = decSign .twos (r &&& fieldMask t.shift) := by
        rw [← imageRaw_mul_pow shift, ← imageRaw_mul_pow shift, mul_left_inj' pow]
    _ ↔ r.getLsbD 15 = false ∨ r &&& fieldMask t.shift = 0xC000 := by
        rw [decSign_modes_agree_iff, getLsbD15_mask shift]

/-- With bit 15 set `SIGNMAG` gives at most 0 and `TWOS` less than 0 (R153 (d)). -/
theorem r2v_of_sign {t : Scale} (h : t.wf = true) {r : Word} (sign : r.getLsbD 15 = true) :
    r2v .signMag t r ≤ 0 ∧ r2v .twos t r < 0 := by
  obtain ⟨-, -, shift, -⟩ := (Scale.wf_iff t).1 h
  have step := Scale.step_pos h
  have pow : (0 : Int) < 2 ^ t.shift := by positivity
  obtain ⟨nonpos, neg⟩ := decSign_of_sign ((getLsbD15_mask shift r).trans sign)
  rw [← imageRaw_mul_pow shift] at nonpos neg
  rw [r2v_eq_steps, r2v_eq_steps]
  exact ⟨mul_nonpos_of_nonpos_of_nonneg (by exact_mod_cast nonpos_of_mul_nonpos_left nonpos pow) step.le,
    mul_neg_of_neg_of_pos (by exact_mod_cast neg_of_mul_neg_left neg pow.le) step⟩

/-- Settles O28: `DecSign` of the masked image, divided by `2^SHIFT` without a remainder, is the number of LSB steps. -/
theorem decoderCornerCases : Obligations.DecoderCornerCases := by
  intro t r r' h
  obtain ⟨-, -, shift, -⟩ := (Scale.wf_iff t).1 h
  have negZero : r2v .signMag t 0x8000 = 0 := by
    rw [r2v_eq_steps, imageRaw_negZero shift, Int.cast_zero, zero_mul]
  have steps (m : SignMode) :
      ∃ k : Int, -(largestNegative m / 2 ^ t.shift : Nat) ≤ k ∧ k ≤ (0x7FFF / 2 ^ t.shift : Nat) ∧
        r2v m t r = k * (t.fsv / t.fsc) := by
    obtain ⟨lo, hi⟩ := imageRaw_bounds shift m r
    exact ⟨_, lo, hi, r2v_eq_steps m t r⟩
  exact ⟨fun m above => r2v_congr above m, negZero, r2v_modes_agree_iff h r, r2v_of_sign h, steps .signMag, steps .twos⟩

end Sys2Proof.Machine

/-! The session commands (42_session_control.md): INIT and its exits (R171 to R174), and the commands that get and set the
Configuration and the Mask/Enable register (R175 to R178). -/

namespace Sys2Proof.Machine

/-! ### The register accesses, placed in the run of calls before them -/

theorem readReg_untouched {s t : State} {a : RegAddr} {r : Option Word} (read : readReg a s = (r, t)) : Untouched s t := by
  obtain ⟨es, -, access⟩ := readReg_cases s a
  rw [read] at access
  exact access.untouched

theorem Access.refl (s : State) : Access s s [] :=
  ⟨.refl s, rfl, rfl, rfl, rfl, rfl, rfl, (List.append_nil _).symm, rfl, by simp⟩

/-- After an access the transport answers on from where its calls left it. -/
theorem Access.answer {s t : State} {es : List Event} (h : Access s t es) (k : Nat) :
    t.answer k = s.answer (es.length + k) := by
  have counter : t.fresh + (k - t.answers.length) = s.fresh + (es.length + k - s.answers.length) := by
    rw [h.fresh, h.answers, List.length_drop]
    omega
  unfold State.answer
  rw [counter, h.answers, List.getElem?_drop]

/-- The next call after `k` others, when it is a data read. -/
theorem Access.read {s t : State} {es : List Event} {k : Nat} (h : Access s t es) (len : es.length = k) :
    Access s (tRead t.params.stopAfterData t) (es ++ [dataEvent s (s.answer k)]) := by
  have same : dataEvent s (s.answer k) = dataEvent t (t.answer 0) := by
    rw [h.answer, len]
    simp only [dataEvent, h.untouched.devAddr, h.untouched.params, Nat.add_zero]
  rw [same]
  exact h.trans (access_read t)

/-- The next call after `k` others, when it is a framed write. -/
theorem Access.write {s t : State} {es : List Event} {k : Nat} (h : Access s t es) (len : es.length = k) (a : RegAddr)
    (v : Word) :
    Access s (tWrite [a, hiByte v, loByte v] t.params.stopAfterData t) (es ++ [frameEvent s a v (s.answer k).count]) := by
  have same : frameEvent s a v (s.answer k).count = frameEvent t a v (t.answer 0).count := by
    rw [h.answer, len]
    simp only [frameEvent, h.untouched.devAddr, h.untouched.params, Nat.add_zero]
  rw [same]
  exact h.trans (access_write t _ _)

/-- `WriteReg` after `k` calls, the write answered 3. -/
theorem Access.write_ok {s t : State} {es : List Event} {k : Nat} (h : Access s t es) (len : es.length = k)
    (n : (s.answer k).count = 3) (a : RegAddr) (v : Word) :
    ∃ u, writeReg a v t = (true, u) ∧ Access s u (es ++ [frameEvent s a v (s.answer k).count]) ∧ u.lastValid = true ∧
      u.lastReg = a := by
  rw [← len, ← Nat.add_zero es.length, ← h.answer] at n
  exact ⟨_, writeReg_ok t n, (h.write len a v).setLast a, rfl, rfl⟩

/-- `WriteReg` after `k` calls, the write not answered 3. -/
theorem Access.write_fail {s t : State} {es : List Event} {k : Nat} (h : Access s t es) (len : es.length = k)
    (n : (s.answer k).count ≠ 3) (a : RegAddr) (v : Word) :
    ∃ u, writeReg a v t = (false, u) ∧ Access s u (es ++ [frameEvent s a v (s.answer k).count]) ∧ u.lastValid = false := by
  rw [← len, ← Nat.add_zero es.length, ← h.answer] at n
  exact ⟨_, writeReg_fail t n, (h.write len a v).invalidateLast, rfl⟩

/-- The calls `before` bring `ReadReg(a)` to its data phase: none on the fast path, a good address phase on the slow one. -/
def ReachesData (s : State) (a : RegAddr) (before : List Event) : Prop :=
  (s.hits a = true ∧ before = []) ∨ (s.hits a = false ∧ (s.answer 0).count = 1 ∧ before = [addrEvent s a 1])

/-- From the data phase on the two paths are the same. -/
theorem readReg_eq_dataPhase {s : State} {a : RegAddr} {before : List Event} (h : ReachesData s a before) :
    ∃ t, readReg a s = dataPhase a t ∧ Access s t before := by
  rcases h with ⟨hit, rfl⟩ | ⟨miss, n, rfl⟩
  · exact ⟨s, by simp [readReg, hit], .refl s⟩
  · refine ⟨tWrite [a] false s, by simp [readReg, miss, n], ?_⟩
    rw [← n]
    exact access_write s [a] false

/-- The data phase succeeds: the image is read, and `a` is the last register. -/
theorem readReg_image {s : State} {a : RegAddr} {before : List Event} {k : Nat} (h : ReachesData s a before)
    (len : before.length = k) (n : (s.answer k).count = 2) :
    ∃ t, readReg a s = (some (imageOf (s.answer k).b0 (s.answer k).b1), t) ∧
      Access s t (before ++ [dataEvent s (s.answer k)]) ∧ t.lastValid = true ∧ t.lastReg = a := by
  obtain ⟨t, read, access⟩ := readReg_eq_dataPhase h
  have here : t.answer 0 = s.answer k := len ▸ access.answer 0
  exact ⟨_, by simp [read, dataPhase, here, n], (access.read len).setLast a, rfl, rfl⟩

/-- The data phase fails. -/
theorem readReg_noImage {s : State} {a : RegAddr} {before : List Event} {k : Nat} (h : ReachesData s a before)
    (len : before.length = k) (n : (s.answer k).count ≠ 2) :
    ∃ t, readReg a s = (none, t) ∧ Access s t (before ++ [dataEvent s (s.answer k)]) ∧ t.lastValid = false := by
  obtain ⟨t, read, access⟩ := readReg_eq_dataPhase h
  have here : t.answer 0 = s.answer k := len ▸ access.answer 0
  exact ⟨_, by simp [read, dataPhase, here, n], (access.read len).invalidateLast, rfl⟩

/-! ### GET_CONFIG and GET_MASK_ENABLE (R175, R177) -/

/-- After a successful read the getter delivers the unpacked record, and keeps what the read left of the session. -/
theorem exec_registerGetter_ok {i : Instr} {a : RegAddr} {s s1 : State} {r : Word}
    (command : (i = .getConfig ∧ a = 0x00) ∨ (i = .getMaskEnable ∧ a = 0x0F)) (ready : s.ready = true)
    (read : readReg a s = (some r, s1)) :
    ∃ t, exec i s = .next t ∧ t.status = 0 ∧
      ((i = .getConfig → t.outCfg = unpackConfig r) ∧
        (i = .getMaskEnable → t.outMe = unpackMaskEnable s.params.meLayout r)) ∧ SessionKept s1 t := by
  rw [← (readReg_untouched read).params]
  rcases command with ⟨rfl, rfl⟩ | ⟨rfl, rfl⟩
  · have run : exec .getConfig s = .next _ := congrArg Host.Outcome.next (getReg_ready ready read)
    exact ⟨_, run, rfl, ⟨fun _ => rfl, nofun⟩, ⟨rfl, rfl, rfl, rfl, rfl⟩⟩
  · have run : exec .getMaskEnable s = .next _ := congrArg Host.Outcome.next (getReg_ready ready read)
    exact ⟨_, run, rfl, ⟨nofun, fun _ => rfl⟩, ⟨rfl, rfl, rfl, rfl, rfl⟩⟩

/-- Settles O37: on each path `ReadReg` answers the image, and the getter goes on from what the path left. -/
theorem registerGetterResult : Obligations.RegisterGetterResult := by
  intro i a s command ready
  dsimp only
  rw [← imageOf_eq, ← imageOf_eq]
  refine ⟨fun miss n m => ?_, fun valid reg n => ?_⟩
  · have read := readReg_slow_ok s ((hits_eq_false_iff s a).2 miss) n m
    obtain ⟨t, run, ok, delivered, kept⟩ := exec_registerGetter_ok command ready read
    exact ⟨t, run, ok, delivered, by simp [kept.trace, n, m], kept.ready.trans ready, kept.lastValid, kept.lastReg,
      exec_untouched run⟩
  · have read := readReg_fast_ok s ((hits_iff s a).2 ⟨valid, reg⟩) n
    obtain ⟨t, run, ok, delivered, kept⟩ := exec_registerGetter_ok command ready read
    exact ⟨t, run, ok, delivered, by simp [kept.trace, n], kept.ready.trans ready, kept.lastValid, kept.lastReg,
      exec_untouched run⟩

/-! ### SET_CONFIG and SET_MASK_ENABLE (R176, R178) -/

/-- Settles O39: the setter is one `WriteReg` of the packed record, which the answer 3 lets succeed. -/
theorem registerSetterResult : Obligations.RegisterSetterResult := by
  intro i a w s command ready n
  have run : exec i s = .next (setReg a w s) := by
    obtain ⟨rfl, rfl, rfl⟩ | ⟨rfl, rfl, rfl⟩ := command <;> rfl
  rw [setReg_ready ready (writeReg_ok s n)] at run
  exact ⟨_, run, rfl, by simp [n, hiByte_eq, loByte_eq], ready, rfl, rfl, exec_untouched run⟩

/-! ### INIT (R171 to R174) -/

/-- Settles O43: INIT clears `READY` before it does anything else. -/
theorem initRunsInEitherState : Obligations.InitRunsInEitherState := by
  intro s b
  have cleared : State.setReady false { s with ready := b } = s.setReady false := rfl
  change Host.Outcome.next (initSession { s with ready := b }) = .next (initSession s)
  unfold initSession
  rw [cleared]

section

variable {s s1 s2 s3 : State} {id : Word}

theorem exec_init_readFail (read : readReg s.params.idReg (s.setReady false) = (none, s1)) :
    exec .init s = .next (raise .communicationError s1) := by
  simp only [exec, execInit, initSession, read]

theorem exec_init_mismatch (read : readReg s.params.idReg (s.setReady false) = (some id, s1))
    (differ : id ≠ s.params.expectedId) : exec .init s = .next (raise .invalidVendor s1) := by
  simp only [exec, execInit, initSession, read, if_neg differ]

theorem exec_init_match (read : readReg s.params.idReg (s.setReady false) = (some id, s1))
    (same : id = s.params.expectedId) : exec .init s = .next (initWrites s1) := by
  simp only [exec, execInit, initSession, read, if_pos same]

theorem initWrites_firstFail (first : writeReg configReg s.params.initResetWord s = (false, s1)) :
    initWrites s = raise .communicationError s1 := by
  simp only [initWrites, first]

theorem initWrites_secondFail (first : writeReg configReg s.params.initResetWord s = (true, s1))
    (second : writeReg configReg (initConfigWord s.inCfg) s1 = (false, s2)) :
    initWrites s = raise .communicationError s2 := by
  simp only [initWrites, first, second]

theorem initWrites_succeed (first : writeReg configReg s.params.initResetWord s = (true, s1))
    (second : writeReg configReg (initConfigWord s.inCfg) s1 = (true, s2)) :
    initWrites s = finish (s2.setReady true) := by
  simp only [initWrites, first, second]

end

/-- Settles O42: each exit is the equation for the first failure, and its calls are those of the accesses made before it. -/
theorem initExitTable : Obligations.InitExitTable := by
  intro s
  refine ⟨fun miss n => ?_, fun n before path => ?_⟩
  · have run := exec_init_readFail (readReg_address_fail (s.setReady false) ((hits_eq_false_iff s _).2 miss) n)
    exact ⟨_, run, rfl, rfl, rfl, rfl, exec_untouched run⟩
  obtain ⟨reaches, len⟩ : ReachesData (s.setReady false) s.params.idReg before ∧ before.length = n := by
    rcases path with ⟨hit, rfl, rfl⟩ | ⟨miss, one, rfl, rfl⟩
    · exact ⟨.inl ⟨(hits_iff s _).2 hit, rfl⟩, rfl⟩
    · exact ⟨.inr ⟨(hits_eq_false_iff s _).2 miss, one, rfl⟩, rfl⟩
  dsimp only
  rw [← imageOf_eq]
  simp only [← hiByte_eq, ← loByte_eq, List.append_assoc]
  by_cases two : (s.answer n).count = 2
  · obtain ⟨s1, read, access, valid, reg⟩ := readReg_image reaches len two
    have len1 : (before ++ [dataEvent s (s.answer n)]).length = n + 1 := by simp [len]
    have len2 (e : Event) : (before ++ [dataEvent s (s.answer n)] ++ [e]).length = n + 2 := by simp [len]
    have params := access.untouched.params
    have inCfg := access.untouched.inCfg
    refine ⟨fun h => absurd two h, fun _ differ => ?_, fun _ same short => ?_, fun _ same three short => ?_,
      fun _ same three three' => ?_⟩
    · have run := exec_init_mismatch read differ
      exact ⟨_, run, rfl, access.trace, ⟨access.ready, valid, reg⟩, exec_untouched run⟩
    · obtain ⟨s2, first, access1, invalid⟩ := access.write_fail len1 short configReg s.params.initResetWord
      have run := exec_init_match read same
      rw [initWrites_firstFail (params ▸ first)] at run
      exact ⟨_, run, rfl, by rw [raise_trace, access1.trace, List.append_assoc]; rfl, ⟨access1.ready, invalid⟩,
        exec_untouched run⟩
    · obtain ⟨s2, first, access1, -⟩ := access.write_ok len1 three configReg s.params.initResetWord
      obtain ⟨s3, second, access2, invalid⟩ := access1.write_fail (len2 _) short configReg (initConfigWord s.inCfg)
      have run := exec_init_match read same
      rw [initWrites_secondFail (params ▸ first) (inCfg ▸ second)] at run
      exact ⟨_, run, rfl, by rw [raise_trace, access2.trace, List.append_assoc, List.append_assoc]; rfl,
        ⟨access2.ready, invalid⟩, exec_untouched run⟩
    · obtain ⟨s2, first, access1, -⟩ := access.write_ok len1 three configReg s.params.initResetWord
      obtain ⟨s3, second, access2, valid, reg⟩ := access1.write_ok (len2 _) three' configReg (initConfigWord s.inCfg)
      have run := exec_init_match read same
      rw [initWrites_succeed (params ▸ first) (inCfg ▸ second)] at run
      exact ⟨_, run, rfl, by rw [finish_trace, setReady_trace, access2.trace, List.append_assoc, List.append_assoc]; rfl,
        ⟨rfl, valid, reg⟩, exec_untouched run⟩
  · obtain ⟨s1, read, access, invalid⟩ := readReg_noImage reaches len two
    have run := exec_init_readFail read
    exact ⟨fun _ => ⟨_, run, rfl, access.trace, ⟨access.ready, invalid⟩, exec_untouched run⟩, fun h => absurd h two,
      fun h => absurd h two, fun h => absurd h two, fun h => absurd h two⟩

end Sys2Proof.Machine

/-! The voltage commands (43_session_voltage.md): what a getter and a setter in `Ready` leave when every call of theirs
succeeds (R191, R192). -/

namespace Sys2Proof.Machine

/-! ### The voltage getters (R191) -/

/-- Whichever path brings a voltage getter to its data phase, a good data read completes it. -/
theorem exec_voltGetter_ok {i : Instr} {k : Kind} {a : RegAddr} {s : State} {before : List Event} {n : Nat}
    (row : voltGetter s.params i = some (k, a)) (ready : s.ready = true) (reaches : ReachesData s a before)
    (len : before.length = n) (two : (s.answer n).count = 2) :
    ∃ t, exec i s = .next t ∧ t.status = 0 ∧
      t.outV = decodeVolt s.params k (imageOf (s.answer n).b0 (s.answer n).b1) ∧
      t.trace = s.trace ++
        (before ++ [.read s.devAddr 2 s.params.stopAfterData 2 [(s.answer n).b0, (s.answer n).b1]]) ∧
      t.ready = true ∧ t.lastValid = true ∧ t.lastReg = a ∧ Untouched s t := by
  obtain ⟨s1, read, access, valid, reg⟩ := readReg_image reaches len two
  rw [dataEvent, two] at access
  have run := exec_voltGetter row
  rw [getV, getReg_ready ready read] at run
  have decoder : decodeVolt s1.params k = decodeVolt s.params k := by rw [access.untouched.params]
  exact ⟨_, run, rfl, congrFun decoder _, access.trace, access.ready.trans ready, valid, reg, exec_untouched run⟩

/-- Settles O36: each path reaches the data phase, the slow one after a good address phase. -/
theorem voltageGetterResult : Obligations.VoltageGetterResult := by
  intro i k a s row ready
  dsimp only
  rw [← imageOf_eq, ← imageOf_eq]
  refine ⟨fun miss one two => ?_, fun valid reg two => ?_⟩
  · exact exec_voltGetter_ok row ready (.inr ⟨(hits_eq_false_iff s a).2 miss, one, rfl⟩) rfl two
  · exact exec_voltGetter_ok row ready (.inl ⟨(hits_iff s a).2 ⟨valid, reg⟩, rfl⟩) rfl two

/-! ### The voltage setters (R192) -/

/-- Settles O38: a number has an image, and the setter is one `WriteReg` of it, which the answer 3 lets succeed. -/
theorem voltageSetterResult : Obligations.VoltageSetterResult := by
  intro i k a v s row ready number n
  have image : encodeVolt s.params k s.inV = some (v2r s.params.signMode (s.params.scale.get k) v) := by
    rw [number, encodeVolt]
  have run := (exec_voltSetter row).trans (setV_image ready image)
  rw [setReg_ready ready (writeReg_ok s n)] at run
  exact ⟨_, run, rfl, by simp [n, hiByte_eq, loByte_eq], ready, rfl, rfl, exec_untouched run⟩

end Sys2Proof.Machine

/-! How a command ends (60_exceptions.md): with a reserved opcode (R222), an invalid argument (R223), no session (R224), a
failed call (R225) or the wrong identification (R226); which of them wins (R227); and what each leaves of the session (R229,
R232). -/

namespace Sys2Proof.Machine

/-! ### A reserved opcode (R95, R222) -/

/-- The ranges of R95 are what the rows of R92 leave out. -/
theorem decodeOp_reserved {op : Byte} (arg : Byte)
    (h : op.toNat = 0 ∨ (0x07 ≤ op.toNat ∧ op.toNat ≤ 0x0F) ∨ (0x15 ≤ op.toNat ∧ op.toNat ≤ 0x1F) ∨ 0x2D ≤ op.toNat) :
    decodeOp op arg = .error (.reservedOpcode op) := by
  unfold decodeOp
  split
  on_goal 25 => rfl
  all_goals omega

theorem runCommand_reserved {s : State} {e : DecodeError} (h : decode s.cmd = .error e) :
    runCommand s = .next (raise .invalidArgument s) := by
  rw [runCommand, h]
  rfl

/-- Settles O4: the word has no row in the opcode map, and presenting it touches the ports alone. -/
theorem reservedOpcodeEndsInvalidArgument : Obligations.ReservedOpcodeEndsInvalidArgument := by
  intro s c rest hw hs hd reserved
  dsimp only at reserved
  rw [← toNat_high c.cmd] at reserved
  have decoded : decode (present c rest s).cmd = .error (.reservedOpcode (opField c.cmd)) :=
    decodeOp_reserved (argField c.cmd) reserved
  rw [step_command hw hs, issue_run hd, runCommand_reserved decoded]
  exact ⟨_, rfl, rfl, ⟨rfl, rfl, rfl, rfl, rfl⟩, rfl, rfl, rfl⟩

/-! ### Every step goes on (R230, R264) -/

/-- Settles O11: to wait and to be reset have a next state always, and a command has one unless it meets a NaN. -/
theorem admittedStepGoesOn : Obligations.AdmittedStepGoesOn := by
  intro s hw voltage
  cases hs : s.hostStream with
  | nil => exact ⟨s, idleBlockWaits s hw hs⟩
  | cons input rest =>
    cases input with
    | reset => exact ⟨_, by rw [step, if_pos hw, hs]⟩
    | command c =>
      obtain ⟨hd, noNan⟩ := voltage c rest hs
      rw [step_command hw hs, issue_run hd]
      exact runCommand_next noNan

/-! ### An invalid argument (R223) -/

theorem argValid_of_hasChannel {i : Instr} (h : hasChannel i = true) (n : Nat) : i.argValid n = validChannel n i.arg := by
  cases i with
  | shuntVoltageV | busVoltageV | getCritLimitV | setCritLimitV | getWarnLimitV | setWarnLimitV => rfl
  | _ => exact nomatch h

theorem argValid_of_formatN {i : Instr} (h : formatN i = true) (n : Nat) : i.argValid n = true := by
  cases i with
  | voltToReg | regToVolt => exact nomatch h
  | shuntVoltageV | busVoltageV | getCritLimitV | setCritLimitV | getWarnLimitV | setWarnLimitV => exact nomatch h
  | _ => rfl

theorem validChannel_eq_false_iff (n : Nat) (ch : Byte) :
    validChannel n ch = false ↔ ch.toNat = 0 ∨ n + 1 ≤ ch.toNat := by
  rw [← Bool.not_eq_true, validChannel, Bool.and_eq_true, decide_eq_true_eq, decide_eq_true_eq]
  omega

theorem validKind_eq_false_iff (kind : Byte) : validKind kind = false ↔ 8 ≤ kind.toNat := by
  rw [validKind, decide_eq_false_iff_not]
  omega

/-- The argument check is the first thing a command does: it ends there if the argument is invalid. -/
theorem exec_badArgument {i : Instr} {s : State} (bad : i.argValid s.params.nchan = false) :
    exec i s = .next (raise .invalidArgument s) := by
  have kind {b : Byte} (h : validKind b = false) : kindOf b = none := by
    rw [← kindOf_isSome] at h
    exact Option.not_isSome_iff_eq_none.1 (Bool.eq_false_iff.1 h)
  have channel {ch : Byte} (h : validChannel s.params.nchan ch = false) : ¬checkCh s.params.nchan ch = true := by
    rw [checkCh_eq, h]
    exact Bool.false_ne_true
  cases i with
  | voltToReg b => simp only [exec, execVoltToReg, kind bad]
  | regToVolt b => simp only [exec, execRegToVolt, kind bad]
  | shuntVoltageV | busVoltageV | getCritLimitV | getWarnLimitV =>
    exact congrArg Host.Outcome.next (if_neg (channel bad))
  | setCritLimitV | setWarnLimitV => exact if_neg (channel bad)
  | _ => exact nomatch bad

/-! ### No session (R224) -/

theorem getReg_noSession {s : State} {a : RegAddr} {deliver : Word → State → State} (off : s.ready = false) :
    getReg a deliver s = raise .notInitialized s := by
  rw [getReg, if_neg (by simp [off])]

theorem setReg_noSession {s : State} {a : RegAddr} {w : Word} (off : s.ready = false) :
    setReg a w s = raise .notInitialized s := by
  rw [setReg, if_neg (by simp [off])]

theorem setV_noSession {s : State} {k : Kind} {a : RegAddr} (off : s.ready = false) :
    setV k a s = .next (raise .notInitialized s) := by
  rw [setV, if_neg (by simp [off])]

/-- Past the argument check a command that needs a session ends where it tests `READY`, before it looks at an operand. -/
theorem exec_noSession {i : Instr} {s : State} (needs : needsSession i = true)
    (valid : i.argValid s.params.nchan = true) (off : s.ready = false) : exec i s = .next (raise .notInitialized s) := by
  have channel {ch : Byte} (h : validChannel s.params.nchan ch = true) : checkCh s.params.nchan ch = true := by
    rw [checkCh_eq, h]
  cases i with
  | packConfig | unpackConfig | packMaskEnable | unpackMaskEnable | init => exact nomatch needs
  | voltToReg | regToVolt => simp [needsSession, isCodec, Instr.op] at needs
  | getConfig | getMaskEnable | shuntSumV | getSumLimitV | getPvUpperV | getPvLowerV =>
    exact congrArg Host.Outcome.next (getReg_noSession off)
  | setConfig | setMaskEnable => exact congrArg Host.Outcome.next (setReg_noSession off)
  | setSumLimitV | setPvUpperV | setPvLowerV => exact setV_noSession off
  | shuntVoltageV | busVoltageV | getCritLimitV | getWarnLimitV =>
    exact congrArg Host.Outcome.next ((if_pos (channel valid)).trans (getReg_noSession off))
  | setCritLimitV | setWarnLimitV => exact (if_pos (channel valid)).trans (setV_noSession off)

/-! ### The status of a command, and which condition wins (R227) -/

/-- The code of the first condition of R227 that applies to a command that made the calls `calls`. -/
def firstStatus (i : Instr) (s : State) (calls : List Event) : BitVec 3 :=
  if i.argValid s.params.nchan = false then 3
  else if needsSession i = true ∧ s.ready = false then 4
  else if calls.any (fun e => !e.ok) then 1
  else if i = .init ∧ firstImage calls ≠ some s.params.expectedId then 2
  else 0

/-- Past the argument and the session check the calls decide. -/
theorem firstStatus_of_checked {i : Instr} {s : State} (valid : i.argValid s.params.nchan = true)
    (on : needsSession i = true → s.ready = true) (calls : List Event) :
    firstStatus i s calls =
      if calls.any (fun e => !e.ok) then 1
      else if i = .init ∧ firstImage calls ≠ some s.params.expectedId then 2 else 0 := by
  have session : ¬(needsSession i = true ∧ s.ready = false) := fun ⟨needs, off⟩ => nomatch (on needs).symm.trans off
  rw [firstStatus, if_neg (by simp [valid]), if_neg session]

/-- INIT checks neither: the conditions are those its exits show (R172). -/
theorem firstStatus_init (s : State) (calls : List Event) :
    firstStatus .init s calls =
      if calls.any (fun e => !e.ok) then 1
      else if firstImage calls ≠ some s.params.expectedId then 2 else 0 := by
  rw [firstStatus_of_checked rfl fun needs => absurd needs (by decide)]
  simp only [true_and]

/-- A command that is not INIT and has passed its checks ends `Ok`, unless a call failed. -/
theorem firstStatus_of_ne_init {i : Instr} {s : State} (valid : i.argValid s.params.nchan = true)
    (on : needsSession i = true → s.ready = true) (noInit : i ≠ .init) (calls : List Event) :
    firstStatus i s calls = if calls.any (fun e => !e.ok) then 1 else 0 := by
  simp only [firstStatus_of_checked valid on, noInit, false_and, if_false]

/-- A command ends with the first condition of R227 that applies. -/
theorem exec_status {i : Instr} {s t : State} (h : exec i s = .next t) :
    t.status = firstStatus i s (newCalls s t) := by
  have kinds := target_kinds s.params i
  cases exec_run h with
  | badArgument wf ends => rw [firstStatus, if_pos wf]; exact ends.status
  | noSession wf needs ready ends => rw [firstStatus, if_neg (by simp [wf]), if_pos ⟨needs, ready⟩]; exact ends.status
  | codec wf isC ends =>
    rw [firstStatus_of_ne_init wf (by simp [needsSession, isC]) (kinds.1 isC).2.2, newCalls_nil ends.session]
    exact ends.status
  | get a r s1 es target ready read access ends =>
    rw [target] at kinds
    rw [firstStatus_of_ne_init (argValid_of_readTarget target) (fun _ => ready) (kinds.2.1 rfl).2.2,
      newCalls_of_ends access ends, (readPath_facts read).failed, ends.status]
    cases r <;> rfl
  | set a w b s1 es target ready write access ends =>
    rw [target] at kinds
    obtain ⟨e, rfl, ok⟩ := (writePath_facts write).single
    rw [firstStatus_of_ne_init (argValid_of_writeTarget target) (fun _ => ready) (kinds.2.2 rfl).2.2,
      newCalls_of_ends access ends, ends.status, List.any_cons, List.any_nil, ok]
    cases b <;> rfl
  | init isInit run =>
    subst isInit
    rw [firstStatus_init]
    exact (initRun_facts run).status

/-- Settles O44: presenting a command changes nothing the conditions look at. -/
theorem statusPriority : Obligations.StatusPriority := by
  intro s t c rest hw hs h
  rcases (step_cases h).2 with ⟨idle, -⟩ | ⟨_, reset, -⟩ | ⟨c', rest', command, -, ended⟩
  · exact nomatch hs.symm.trans idle
  · exact nomatch hs.symm.trans reset
  · obtain ⟨rfl, rfl⟩ : c = c' ∧ rest = rest' := by simpa using hs.symm.trans command
    rcases ended with ⟨e, decoded, rfl⟩ | ⟨i, decoded, hx⟩
    · rw [decoded]
      rfl
    · have status : t.status = firstStatus i (present c rest s) (newCalls (present c rest s) t) := exec_status hx
      rw [decoded]
      exact status

/-! ### What a status says of the checks (R223, R224, R226) -/

/-- `InvalidArgument` is for an invalid argument, and for nothing else (R223). -/
theorem firstStatus_eq_three_iff (i : Instr) (s : State) (calls : List Event) :
    firstStatus i s calls = 3 ↔ i.argValid s.params.nchan = false := by
  unfold firstStatus
  split_ifs <;> simp_all

/-- `NotInitialized` is for a valid argument and no session where one is needed (R224). -/
theorem firstStatus_eq_four_iff (i : Instr) (s : State) (calls : List Event) :
    firstStatus i s calls = 4 ↔
      i.argValid s.params.nchan = true ∧ needsSession i = true ∧ s.ready = false := by
  unfold firstStatus
  split_ifs <;> simp_all

/-- `InvalidVendor` is for INIT alone (R226). -/
theorem eq_init_of_firstStatus {i : Instr} {s : State} {calls : List Event} (h : firstStatus i s calls = 2) :
    i = .init := by
  unfold firstStatus at h
  split_ifs at h <;> simp_all

/-- Settles O29: the check comes first, and no other condition of R227 has the status. -/
theorem invalidArgumentIsExactlyABadArgument : Obligations.InvalidArgumentIsExactlyABadArgument := by
  refine ⟨fun i s bad => ?_, fun i s t valid h st => ?_, fun i channel => ?_, fun _ => validKind_eq_false_iff,
    fun _ => validKind_eq_false_iff, fun n i formN => argValid_of_formatN formN n⟩
  · have ends := ends_raise s .invalidArgument
    exact ⟨_, exec_badArgument bad, ends.status, ends.session, ends.untouched⟩
  · rw [exec_status h, firstStatus_eq_three_iff, valid] at st
    exact nomatch st
  · rw [argValid_of_hasChannel channel]
    exact validChannel_eq_false_iff 3 i.arg

/-- Settles O30: the session check comes next, and a codec operation does not make it. -/
theorem notInitializedWithoutSession : Obligations.NotInitializedWithoutSession := by
  refine ⟨fun i s needs valid off => ?_, fun i s t isC h st => ?_⟩
  · have ends := ends_raise s .notInitialized
    exact ⟨_, exec_noSession needs valid off, ends.status, ends.session, ends.untouched⟩
  · rw [exec_status h, firstStatus_eq_four_iff] at st
    obtain ⟨-, needs, -⟩ := st
    simp [needsSession, isC] at needs

/-! ### A failed call (R225) -/

/-- A getter whose `ReadReg` failed after the calls `calls` ends `CommunicationError` with no other call. -/
theorem exec_getter_failed {i : Instr} {a : RegAddr} {s s1 : State} {calls : List Event}
    (target : readTarget s.params i = some a) (ready : s.ready = true) (read : readReg a s = (none, s1))
    (trace : s1.trace = s.trace ++ calls) :
    ∃ t, exec i s = .next t ∧ t.status = 1 ∧ t.trace = s.trace ++ calls ∧ t.ready = true ∧ t.lastValid = false ∧
      Untouched s t := by
  obtain ⟨deliver, run, -⟩ := exec_getter target
  have run : exec i s = .next (raise .communicationError s1) := by rw [run s rfl, getReg_failed ready read]
  obtain ⟨es, path, access⟩ := readReg_cases s a
  rw [read] at path access
  exact ⟨_, run, rfl, trace, access.ready.trans ready, (readPath_facts path).valid, exec_untouched run⟩

/-- Settles O40: on each path `ReadReg` fails with the calls it had made. -/
theorem getterStopsAtFailedCall : Obligations.GetterStopsAtFailedCall := by
  intro i a s target ready
  refine ⟨fun miss n => ?_, fun miss n m => ?_, fun valid reg n => ?_⟩
  · exact exec_getter_failed target ready (readReg_address_fail s ((hits_eq_false_iff s a).2 miss) n) rfl
  · exact exec_getter_failed target ready (readReg_slow_fail s ((hits_eq_false_iff s a).2 miss) n m) (by simp)
  · exact exec_getter_failed target ready (readReg_fast_fail s ((hits_iff s a).2 ⟨valid, reg⟩) n) rfl

/-- Settles O41: the one `WriteReg` fails with its framed write as the only call. -/
theorem setterReportsFailedWrite : Obligations.SetterReportsFailedWrite := by
  intro i a w s target image ready n
  have run := exec_setter target image ready
  rw [setReg_failed ready (writeReg_fail s n)] at run
  exact ⟨_, run, rfl, by simp [hiByte_eq, loByte_eq], ready, rfl, exec_untouched run⟩

/-! ### The session after each status (R229) -/

/-- Only INIT changes `READY`. -/
theorem exec_keepsReady {i : Instr} {s t : State} (h : exec i s = .next t) (noInit : i ≠ .init) : t.ready = s.ready := by
  cases exec_run h with
  | badArgument wf ends => exact ends.session.ready
  | noSession wf needs ready ends => exact ends.session.ready
  | codec wf isC ends => exact ends.session.ready
  | get a r s1 es target ready read access ends => exact ends.session.ready.trans access.ready
  | set a w b s1 es target ready write access ends => exact ends.session.ready.trans access.ready
  | init isInit run => exact absurd isInit noInit

/-- After `CommunicationError` the last call failed and `LAST_VALID` is 0; INIT has cleared `READY`, and any other command
had a session. -/
theorem exec_failed {i : Instr} {s t : State} (h : exec i s = .next t) (st : t.status = 1) :
    t.lastValid = false ∧
      ((i = .init ∧ t.ready = false) ∨ (needsSession i = true ∧ s.ready = true ∧ t.ready = true)) ∧
      ∃ e, (newCalls s t).getLast? = some e ∧ e.ok = false := by
  have kinds := target_kinds s.params i
  cases exec_run h with
  | badArgument wf ends => exact absurd (ends.status.symm.trans st) (by decide)
  | noSession wf needs ready ends => exact absurd (ends.status.symm.trans st) (by decide)
  | codec wf isC ends => exact absurd (ends.status.symm.trans st) (by decide)
  | get a r s1 es target ready read access ends =>
    have f := readPath_facts read
    rw [target] at kinds
    cases r with
    | some w => exact absurd (show Status.ok.code = 1 from ends.status.symm.trans st) (by decide)
    | none =>
      rw [newCalls_of_ends access ends]
      exact ⟨ends.session.lastValid.trans f.valid,
        .inr ⟨(kinds.2.1 rfl).2.1, ready, ends.session.ready.trans (access.ready.trans ready)⟩, f.last rfl⟩
  | set a w b s1 es target ready write access ends =>
    have f := writePath_facts write
    obtain ⟨e, rfl, ok⟩ := f.single
    rw [target] at kinds
    cases b with
    | true => exact absurd (ends.status.symm.trans st) (by decide)
    | false =>
      rw [newCalls_of_ends access ends]
      exact ⟨ends.session.lastValid.trans f.valid,
        .inr ⟨(kinds.2.2 rfl).2.1, ready, ends.session.ready.trans (access.ready.trans ready)⟩, e, rfl, ok⟩
  | init isInit run =>
    have f := initRun_facts run
    obtain ⟨invalid, last⟩ := f.failed st
    exact ⟨invalid, .inl ⟨isInit, by rw [f.ready, st]; rfl⟩, last⟩

/-- Settles O45: the first two statuses end a command at its checks, the next two tell of failed calls and of INIT, and
after `Ok` the register the command accessed is the last one. -/
theorem stateAfterEachStatus : Obligations.StateAfterEachStatus := by
  intro i s t h
  have status := exec_status h
  refine ⟨fun st => ?_, fun st => ?_, exec_failed h, fun st => ?_, fun st isC => ?_, fun st a target => ?_, ?_⟩
  · have bad := (firstStatus_eq_three_iff i s _).1 (status.symm.trans st)
    rw [exec_badArgument bad] at h
    cases h
    exact (ends_raise s _).session
  · obtain ⟨valid, needs, off⟩ := (firstStatus_eq_four_iff i s _).1 (status.symm.trans st)
    rw [exec_noSession needs valid off] at h
    cases h
    exact ⟨needs, off, (ends_raise s _).session⟩
  · obtain rfl := eq_init_of_firstStatus (status.symm.trans st)
    have f := exec_init_facts h
    obtain ⟨reg, writes⟩ := f.vendor st
    exact ⟨rfl, by rw [f.ready, st]; rfl, f.valid (by rw [st]; decide), reg, writes⟩
  · have valid : i.argValid s.params.nchan = true := by
      rw [← Bool.not_eq_false, ← firstStatus_eq_three_iff i s (newCalls s t), ← status, st]
      decide
    exact (codec_ends isC valid h).session
  · have noInit : i ≠ .init := by
      rintro rfl
      rcases target with target | target <;> exact nomatch target
    have last : LastAccessed t a :=
      target.elim (lastAccessed_of_getter · h st) (lastAccessed_of_setter · h st)
    exact ⟨(exec_keepsReady h noInit).symm.trans last.ready, last.ready, last.valid, last.reg⟩
  · rintro st rfl
    have last := lastAccessed_of_init h st
    exact ⟨last.ready, last.valid, last.reg⟩

/-! ### The session over a step (R232) -/

/-- A step that changes `READY` is a reset, which clears it, or runs INIT, after which `READY` says whether it ended `Ok`. -/
theorem step_changesReady {s t : State} (h : step s = .next t) (changed : t.ready ≠ s.ready) :
    ((∃ rest, s.hostStream = .reset :: rest) ∧ t.ready = false) ∨
      ((∃ c rest, s.hostStream = .command c :: rest ∧ decode c.cmd = .ok .init) ∧ t.ready = decide (t.status = 0)) := by
  rcases (step_cases h).2 with ⟨-, rfl⟩ | ⟨rest, reset, rfl⟩ | ⟨c, rest, command, -, ⟨e, -, rfl⟩ | ⟨i, decoded, hx⟩⟩
  · exact absurd rfl changed
  · exact .inl ⟨⟨rest, reset⟩, rfl⟩
  · exact absurd rfl changed
  · by_cases isInit : i = .init
    · subst isInit
      exact .inr ⟨⟨c, rest, command, decoded⟩, (exec_init_facts hx).ready⟩
    · have kept : t.ready = (present c rest s).ready := exec_keepsReady hx isInit
      exact absurd kept changed

/-- Settles O46: a reset only clears `READY`, and INIT sets it if and only if it ends `Ok`. -/
theorem readyChangesOnlyByInitOrReset : Obligations.ReadyChangesOnlyByInitOrReset := by
  refine fun s t h => ⟨fun off on => ?_, fun on off => ?_⟩
  · rcases step_changesReady h (by simp [on, off]) with ⟨-, cleared⟩ | ⟨init, ready⟩
    · exact nomatch on.symm.trans cleared
    · exact ⟨of_decide_eq_true (ready.symm.trans on), init⟩
  · rcases step_changesReady h (by simp [on, off]) with ⟨reset, -⟩ | ⟨init, ready⟩
    · exact .inl reset
    · exact .inr ⟨of_decide_eq_false (ready.symm.trans off), init⟩

end Sys2Proof.Machine

/-! A reset of the block and the hazards (70_reset_and_hazards.md): what a reset leaves and how the first read after it begins
(R250), what clears `LAST_VALID` (R253), and how many transport calls a command that ended `Ok` made (R266). -/

namespace Sys2Proof.Machine

/-! ### What a reset leaves (R250) -/

theorem step_reset {s : State} {rest : List HostInput} (hw : s.params.wf = true) (hs : s.hostStream = .reset :: rest) :
    step s = .next (blockReset { s with hostStream := rest }) := by
  rw [step, if_pos hw, hs]

/-- `ReadReg` of a register that is not the last one begins with the address phase, whether or not its calls succeed. -/
theorem readReg_miss_trace {s : State} {a : RegAddr} (miss : s.hits a = false) :
    ∃ n more, (readReg a s).2.trace = s.trace ++ .write s.devAddr [a] false n :: more := by
  obtain ⟨es, path, access⟩ := readReg_cases s a
  generalize readReg a s = result at path access
  rw [access.trace]
  obtain ⟨r, t⟩ := result
  cases path with
  | fastOk _ hit | fastFail _ hit => exact nomatch miss.symm.trans hit
  | addressFail | slowOk | slowFail => exact ⟨_, _, rfl⟩

/-- Settles O7: after the reset `LAST_VALID` is 0, so no register is the last one. -/
theorem hostResetGivesResetState : Obligations.HostResetGivesResetState := fun _ _ hw hs =>
  ⟨_, step_reset hw hs, rfl, rfl, rfl, rfl, rfl, rfl, rfl, fun _ => readReg_miss_trace rfl⟩

/-! ### What clears `LAST_VALID` (R253) -/

/-- A command that clears `LAST_VALID` ends `CommunicationError`: a successful access sets it, and nothing else of a command
changes it. -/
theorem exec_clearsLast {i : Instr} {s t : State} (h : exec i s = .next t) (valid : s.lastValid = true)
    (cleared : t.lastValid = false) : t.status = 1 := by
  have notKept : ¬SessionKept s t := fun kept => nomatch (cleared.symm.trans kept.lastValid).trans valid
  cases exec_run h with
  | badArgument wf ends => exact absurd ends.session notKept
  | noSession wf needs ready ends => exact absurd ends.session notKept
  | codec wf isC ends => exact absurd ends.session notKept
  | get a r s1 es target ready read access ends =>
    have last : r.isSome = false := ((readPath_facts read).valid.symm.trans ends.session.lastValid.symm).trans cleared
    rw [ends.status, last]
    rfl
  | set a w b s1 es target ready write access ends =>
    have last : b = false := ((writePath_facts write).valid.symm.trans ends.session.lastValid.symm).trans cleared
    rw [ends.status, last]
    rfl
  | init isInit run =>
    by_contra st
    exact nomatch cleared.symm.trans ((initRun_facts run).valid st)

/-- Settles O47: an idle step and a reserved opcode keep `LAST_VALID`, and a command that clears it ended with its failed
call. -/
theorem lastValidClearedOnlyByFailureOrReset : Obligations.LastValidClearedOnlyByFailureOrReset := by
  intro s t h valid cleared
  rcases (step_cases h).2 with ⟨-, rfl⟩ | ⟨rest, reset, -⟩ | ⟨c, rest, -, -, ⟨e, -, rfl⟩ | ⟨i, -, hx⟩⟩
  · exact nomatch cleared.symm.trans valid
  · exact .inl ⟨rest, reset⟩
  · exact nomatch cleared.symm.trans valid
  · have failed : t.status = 1 := exec_clearsLast hx valid cleared
    obtain ⟨-, -, lastCall⟩ := exec_failed hx failed
    exact .inr ⟨failed, lastCall⟩

/-! ### The number of calls of a command (R266) -/

/-- A codec operation makes no call, whatever its argument. -/
theorem newCalls_codec {i : Instr} {s t : State} (isC : isCodec i = true) (h : exec i s = .next t) :
    newCalls s t = [] := by
  cases valid : i.argValid s.params.nchan with
  | false =>
    rw [exec_badArgument valid] at h
    cases h
    exact newCalls_nil (ends_raise s _).session
  | true => exact newCalls_nil (codec_ends isC valid h).session

/-- A getter that ended `Ok` made the data read, and before it the address phase if its register was not the last one. -/
theorem length_newCalls_getter {i : Instr} {a : RegAddr} {s t : State} (target : readTarget s.params i = some a)
    (h : exec i s = .next t) (ok : t.status = 0) : (newCalls s t).length = if s.hits a = true then 1 else 2 := by
  rcases exec_getter_cases target h with ⟨-, ends⟩ | ⟨-, r, s1, es, read, access, ends⟩
  · exact absurd (ends.status.symm.trans ok) (by decide)
  · rw [newCalls_of_ends access ends]
    cases r with
    | none => exact absurd (ends.status.symm.trans ok) (by decide)
    | some w => exact (readPath_facts read).length rfl

/-- A setter that had a session, as one that ended `Ok` did, made its one framed write. -/
theorem length_newCalls_setter {i : Instr} {a : RegAddr} {s t : State} (target : writeTarget s.params i = some a)
    (h : exec i s = .next t) (ok : t.status = 0) : (newCalls s t).length = 1 := by
  rcases exec_setter_cases target h with ⟨-, ends⟩ | ⟨-, w, b, s1, es, write, access, ends⟩
  · exact absurd (ends.status.symm.trans ok) (by decide)
  · obtain ⟨e, rfl, -⟩ := (writePath_facts write).single
    rw [newCalls_of_ends access ends, List.length_singleton]

/-- Settles O49: no call for the codec, one access for a getter or a setter, and INIT's run of accesses. -/
theorem callsPerCommand : Obligations.CallsPerCommand := by
  intro i s t h ok
  refine ⟨fun isC => newCalls_codec isC h, fun a target => ?_, fun a target => length_newCalls_setter target h ok, ?_⟩
  · simp only [length_newCalls_getter target h ok, hits_iff]
  · rintro rfl
    exact (exec_init_facts h).length ok

end Sys2Proof.Machine

/-! Decoding and encoding (30_encoding.md section 2). -/

namespace Sys2Proof.Machine

/-! ### What the rows of the opcode map say (R91, R92) -/

/-- A row of the opcode map answers its own `op`, and a command that carries the `arg` of its word if it carries one. -/
theorem fields_of_decodeOp {op arg : Byte} {i : Instr} (h : decodeOp op arg = .ok i) :
    i.op = op ∧ (formatN i = false → i.arg = arg) := by
  unfold decodeOp at h
  split at h
  on_goal 25 => exact nomatch h
  all_goals
    next row =>
      cases h
      exact ⟨BitVec.eq_of_toNat_eq row.symm, by simp [formatN, hasChannel, Instr.arg]⟩

/-- The encoder writes 0 in the `arg` that format N ignores (log entry 11). -/
theorem arg_of_formatN {i : Instr} (h : formatN i = true) : i.arg = 0#8 := by
  cases i with
  | voltToReg | regToVolt => exact nomatch h
  | shuntVoltageV | busVoltageV | getCritLimitV | setCritLimitV | getWarnLimitV | setWarnLimitV => exact nomatch h
  | _ => rfl

/-! ### From a command to its word and back -/

/-- The opcode map gives back each command from its own two fields. -/
theorem decode_encode (i : Instr) : decode (encode i) = .ok i := by
  rw [encode, decode_join]
  cases i <;> rfl

/-- The mask `0xFF00` clears the low byte of a word and keeps the high one. -/
theorem and_highMask (w : Word) : w &&& 0xFF00 = opField w ++ 0#8 := by
  have mask : (0xFF00 : Word) = BitVec.allOnes 8 ++ 0#8 := rfl
  rw [mask, ← join_fields w, BitVec.and_append, opField_join, BitVec.and_allOnes, BitVec.and_zero]

/-- A word that decodes is the word of its command, up to the `arg` that format N ignores. -/
theorem encode_of_decode {w : Word} {i : Instr} (h : decode w = .ok i) :
    encode i = if formatN i then w &&& 0xFF00 else w := by
  obtain ⟨op, arg⟩ := fields_of_decodeOp h
  cases format : formatN i with
  | true => rw [if_pos rfl, and_highMask, encode, op, arg_of_formatN format]
  | false => rw [if_neg Bool.false_ne_true, encode, op, arg format, join_fields]

/-- Settles O1: a command is looked up by its own `op`, and a row answers only the `op` of its command. -/
theorem decodeAndEncodeAgree : Obligations.DecodeAndEncodeAgree := ⟨decode_encode, fun _ _ => encode_of_decode⟩

/-- Settles O2: each word selects its row of the opcode map. -/
theorem sampleWordsDecode : Obligations.SampleWordsDecode :=
  ⟨rfl, rfl, rfl, rfl, rfl, rfl, rfl, rfl, rfl, rfl, rfl⟩

end Sys2Proof.Machine

/-! The state after reset (70_reset_and_hazards.md R250), and that it meets the invariant. -/

namespace Sys2Proof.Machine

/-- Settles O8: each value is a field of the reset state. -/
theorem resetStateIsAsSpecified : Obligations.ResetStateIsAsSpecified := fun _ => ⟨rfl, rfl, rfl, rfl⟩

/-- Nothing has run, so no call can be illegal, no read bare and no register the last one; the voltage ports hold 0, a
value of either domain. -/
theorem inv_resetWith {p : Params} (wf : p.wf = true) (map : p.sourceMap = true) : (State.resetWith p).Inv where
  params := wf
  map := map
  devAddr := rfl
  status := Nat.zero_le _
  inV := has_num _ 0
  outV := has_num _ 0
  legal := nofun
  addressed := rfl
  lastReg := nofun

/-- R8 admits the reference record, whose `DEV_ADDR` is open. -/
theorem wf_reference : Params.reference.wf = true := by decide

/-- Settles O57: the reset state of an admitted record is good, and the reference record is one, with R56's map. -/
theorem resetIsAGoodState : Obligations.ResetIsAGoodState :=
  ⟨fun _ => inv_resetWith, inv_resetWith wf_reference rfl⟩

end Sys2Proof.Machine
